-- ==== Sys2Proof/Word.lean ====
section
/-! DEFINITION. The widths of the core (spec/00_scope.md R7) and the readings of an 8-bit value (R10). -/

namespace Sys2Proof

/-- An 8-bit value: a register, a data-memory cell, an extended immediate, an ALU result (R3, R10). -/
abbrev Byte := BitVec 8

/-- A 16-bit value: an instruction word, a PC value, a branch target (R3). -/
abbrev Word := BitVec 16

/-- A 6-bit register index, 0 to 63 (R7, R20). -/
abbrev RegIdx := BitVec 6

/-- A 4-bit opcode value (R7, R77). -/
abbrev Opcode := BitVec 4

/-- `sval` of R10: the two's-complement integer of a byte, in -128..127. -/
abbrev sval (v : Byte) : Int := v.toInt

/-- `uval` of R10: the unsigned integer of a byte, in 0..255. -/
abbrev uval (v : Byte) : Nat := v.toNat

/-- `trunc8` of R10: the byte whose unsigned value is `n mod 256`, for any integer `n`. -/
abbrev trunc8 (n : Int) : Byte := BitVec.ofInt 8 n

end Sys2Proof
end

