-- ==== Sys2Proof/Config.lean ====
section
/-! DEFINITION. The fixed sizes of spec/00_scope.md R7 and the parameters of R8, each at the default R8 gives it.
OPCODE_MAP, the one parameter that names instructions, stands in Sys2Proof/Decode.lean. -/

namespace Sys2Proof.Config

/-- NREGS: how many general registers there are (R7). -/
abbrev nregs : Nat := 64

/-- DMEM_SIZE: how many 8-bit data-memory cells there are (R7). -/
abbrev dmemSize : Nat := 2048

/-- IMEM_SIZE: how many 16-bit instruction-memory cells there are (R7). -/
abbrev imemSize : Nat := 1024

/-- STOP_THRESHOLD: how many consecutive sentinel fetches end a run (R7, R40). -/
abbrev stopThreshold : Nat := 3

/-- SENTINEL (R8, R80). UNVERIFIED (assumption 3), unsafe: the spec's default; its
source gives no number. -/
def sentinel : Word := 0xFFFF

/-- The value of every register in INIT_REGS (R8, R24). UNVERIFIED (assumption 4), unsafe: the spec's default. -/
def initReg : Byte := 0x00

/-- The value of every cell in INIT_DMEM (R8, R44), and so what a data address that `dmem` does not list reads as.
UNVERIFIED (assumption 4), unsafe: the spec's default. -/
def initData : Byte := 0x00

/-- CARRY_MODE (R8, R100): how ADD computes the C flag. -/
inductive CarryMode
  /-- C is bit 8 of the unsigned sum. -/
  | unsignedBit8
  /-- C is the signed sum compared with 255, which it never exceeds. -/
  | signedLiteral
  deriving DecidableEq, Repr

/-- MUL_SIGN_MODE (R8, R102): whether MUL writes the S flag. -/
inductive MulSignMode
  /-- MUL writes S from the new N and the current V. -/
  | update
  /-- MUL leaves S as it is. -/
  | keep
  deriving DecidableEq, Repr

/-- CARRY_MODE's default. UNVERIFIED (assumption 5), unsafe: the spec's default. -/
def carryMode : CarryMode := .unsignedBit8

/-- MUL_SIGN_MODE's default. UNVERIFIED (assumption 5), unsafe: the spec's default. -/
def mulSignMode : MulSignMode := .update

end Sys2Proof.Config
end

