-- ==== Sys2Proof/Syntax.lean ====
section
/-! DEFINITION. The 12 instructions of spec/opcode_table.json, in the table's order, and their two formats
(spec/30_encoding.md R71 to R73). -/

namespace Sys2Proof

/-- The two instruction formats (R71): two registers, or one register and one immediate. -/
inductive Format
  | r
  | i
  deriving DecidableEq, Repr

/-- The 12 mnemonics (spec/00_scope.md R2). -/
inductive Mnemonic
  | add | sub | mul | movi | beqz | andi | eor | br | sal | sar | ldr | str
  deriving DecidableEq, Repr

/-- An instruction with its operands (R73). `r1` and `r2` are register indices. `imm` is the immediate as the spec's
rules use it, the 6-bit field extended to 8 bits (spec/00_scope.md R13, R74): `WellFormed` says which 8-bit values the
field can hold. -/
inductive Instr
  /-- ADD r1, r2 (R100) -/
  | add (r1 r2 : RegIdx)
  /-- SUB r1, r2 (R101) -/
  | sub (r1 r2 : RegIdx)
  /-- MUL r1, r2 (R102) -/
  | mul (r1 r2 : RegIdx)
  /-- MOVI r1, imm (R104) -/
  | movi (r1 : RegIdx) (imm : Byte)
  /-- BEQZ r1, imm (R130) -/
  | beqz (r1 : RegIdx) (imm : Byte)
  /-- ANDI r1, imm (R105) -/
  | andi (r1 : RegIdx) (imm : Byte)
  /-- EOR r1, r2 (R103) -/
  | eor (r1 r2 : RegIdx)
  /-- BR r1, r2 (R131) -/
  | br (r1 r2 : RegIdx)
  /-- SAL r1, imm (R106) -/
  | sal (r1 : RegIdx) (imm : Byte)
  /-- SAR r1, imm (R107) -/
  | sar (r1 : RegIdx) (imm : Byte)
  /-- LDR r1, imm (R140) -/
  | ldr (r1 : RegIdx) (imm : Byte)
  /-- STR r1, imm (R141) -/
  | str (r1 : RegIdx) (imm : Byte)
  deriving DecidableEq, Repr

/-- The mnemonic of an instruction. -/
def Instr.mnemonic : Instr → Mnemonic
  | .add _ _ => .add
  | .sub _ _ => .sub
  | .mul _ _ => .mul
  | .movi _ _ => .movi
  | .beqz _ _ => .beqz
  | .andi _ _ => .andi
  | .eor _ _ => .eor
  | .br _ _ => .br
  | .sal _ _ => .sal
  | .sar _ _ => .sar
  | .ldr _ _ => .ldr
  | .str _ _ => .str

end Sys2Proof
end

