-- ==== Sys2Proof/WellFormed.lean ====
section
/-! DEFINITION. Which instructions have an encoding: the immediate ranges of spec/30_encoding.md R76 and R84. Registers
need no check: every index is legal in every field (R78). -/

namespace Sys2Proof

/-- A sign-extended immediate lies in -32..31 (R76). -/
def signedImmOk (imm : Byte) : Bool := decide (-32 ≤ sval imm ∧ sval imm ≤ 31)

/-- A zero-extended immediate lies in 0..63 (R76). -/
def unsignedImmOk (imm : Byte) : Bool := decide (uval imm ≤ 63)

/-- An instruction is well formed when its immediate is one the 6-bit field can hold (R76, R84). -/
def WellFormed : Instr → Bool
  | .add _ _ => true
  | .sub _ _ => true
  | .mul _ _ => true
  | .movi _ imm => signedImmOk imm
  | .beqz _ imm => signedImmOk imm
  | .andi _ imm => signedImmOk imm
  | .eor _ _ => true
  | .br _ _ => true
  | .sal _ imm => unsignedImmOk imm
  | .sar _ imm => unsignedImmOk imm
  | .ldr _ imm => unsignedImmOk imm
  | .str _ imm => unsignedImmOk imm

end Sys2Proof
end

