-- ==== Sys2Proof/Decode.lean ====
section
/-! DEFINITION. Instruction words: the fields, the immediate extension, the opcode map, the decoder, the encoder and the
assembler's encoding rule (spec/30_encoding.md R70 to R84). -/

namespace Sys2Proof

/-- `op = word[15:12]` (R71). -/
def opField (w : Word) : Opcode := w.extractLsb' 12 4

/-- `r1 = word[11:6]` (R71). -/
def r1Field (w : Word) : RegIdx := w.extractLsb' 6 6

/-- `word[5:0]`: r2 of an R-format word, imm6 of an I-format word (R71). -/
def lowField (w : Word) : BitVec 6 := w.extractLsb' 0 6

/-- `{op, r1, low}`: the word of three fields (R71). -/
def joinFields (op : Opcode) (r1 : RegIdx) (low : BitVec 6) : Word := op ++ r1 ++ low

/-- OPCODE_MAP at its default (R77). UNVERIFIED (assumption 2), unsafe: the spec's default. -/
def opcodeMap : Mnemonic → Opcode
  | .add => 0
  | .sub => 1
  | .mul => 2
  | .movi => 3
  | .beqz => 4
  | .andi => 5
  | .eor => 6
  | .br => 7
  | .sal => 8
  | .sar => 9
  | .ldr => 10
  | .str => 11

/-- The mnemonics in the order of the opcode table. -/
def allMnemonics : List Mnemonic :=
  [.add, .sub, .mul, .movi, .beqz, .andi, .eor, .br, .sal, .sar, .ldr, .str]

/-- The mnemonic whose OPCODE_MAP value is `op`, or none for a reserved value (R77, R79). -/
def mnemonicOf (op : Opcode) : Option Mnemonic := allMnemonics.find? (fun m => opcodeMap m == op)

/-- The format of a mnemonic: ADD, SUB, MUL, EOR and BR are R-format, the others I-format (R72). -/
def Mnemonic.format : Mnemonic → Format
  | .add | .sub | .mul | .eor | .br => .r
  | .movi | .beqz | .andi | .sal | .sar | .ldr | .str => .i

/-- The format of an opcode value; a value that names no instruction is I-format (R72). -/
def formatOf (op : Opcode) : Format :=
  match mnemonicOf op with
  | some m => m.format
  | none => .i

/-- `sext_8` of the 6-bit field (R74, R75). -/
def sextImm (f : BitVec 6) : Byte := f.signExtend 8

/-- `zext_8` of the 6-bit field (R74). -/
def zextImm (f : BitVec 6) : Byte := f.setWidth 8

/-- The mnemonics whose immediate is sign-extended (R74). -/
def Mnemonic.signExtends : Mnemonic → Bool
  | .movi | .beqz | .andi => true
  | .add | .sub | .mul | .eor | .br | .sal | .sar | .ldr | .str => false

/-- `imm(op, imm6)` of R74: sign-extended for MOVI, BEQZ and ANDI, zero-extended for every other opcode value. -/
def extendImm (op : Opcode) (f : BitVec 6) : Byte :=
  match mnemonicOf op with
  | some m => if m.signExtends then sextImm f else zextImm f
  | none => zextImm f

/-- Why a word is no instruction. -/
inductive DecodeError
  /-- The sentinel, which means "no instruction present" (R80). -/
  | sentinel
  /-- An opcode value outside the image of OPCODE_MAP (R79). -/
  | unknownOpcode (op : Opcode)
  deriving DecidableEq, Repr

/-- The instruction with mnemonic `m` and the given fields (R71 to R74). -/
def instrOf (m : Mnemonic) (r1 : RegIdx) (low : BitVec 6) : Instr :=
  match m with
  | .add => .add r1 low
  | .sub => .sub r1 low
  | .mul => .mul r1 low
  | .movi => .movi r1 (sextImm low)
  | .beqz => .beqz r1 (sextImm low)
  | .andi => .andi r1 (sextImm low)
  | .eor => .eor r1 low
  | .br => .br r1 low
  | .sal => .sal r1 (zextImm low)
  | .sar => .sar r1 (zextImm low)
  | .ldr => .ldr r1 (zextImm low)
  | .str => .str r1 (zextImm low)

/-- The instruction a word encodes, or the name of the reason it is none (R77 to R82). Every instruction is one word
(R70). -/
def decode (w : Word) : Except DecodeError Instr :=
  if w = Config.sentinel then .error .sentinel
  else
    match mnemonicOf (opField w) with
    | none => .error (.unknownOpcode (opField w))
    | some m => .ok (instrOf m (r1Field w) (lowField w))

/-- `enc_R` and `enc_I` of R71: the word of an instruction. The low field of an I-format word is the low six bits of its
extended immediate, of which a well-formed instruction's other bits are copies. -/
def encode : Instr → Word
  | .add r1 r2 => joinFields (opcodeMap .add) r1 r2
  | .sub r1 r2 => joinFields (opcodeMap .sub) r1 r2
  | .mul r1 r2 => joinFields (opcodeMap .mul) r1 r2
  | .movi r1 imm => joinFields (opcodeMap .movi) r1 (imm.setWidth 6)
  | .beqz r1 imm => joinFields (opcodeMap .beqz) r1 (imm.setWidth 6)
  | .andi r1 imm => joinFields (opcodeMap .andi) r1 (imm.setWidth 6)
  | .eor r1 r2 => joinFields (opcodeMap .eor) r1 r2
  | .br r1 r2 => joinFields (opcodeMap .br) r1 r2
  | .sal r1 imm => joinFields (opcodeMap .sal) r1 (imm.setWidth 6)
  | .sar r1 imm => joinFields (opcodeMap .sar) r1 (imm.setWidth 6)
  | .ldr r1 imm => joinFields (opcodeMap .ldr) r1 (imm.setWidth 6)
  | .str r1 imm => joinFields (opcodeMap .str) r1 (imm.setWidth 6)

/-- The encoding rule of the assembler (R84): the word of `MNEMONIC Ra, n`, where `n` is a register index for an R-format
mnemonic, a decimal in -32..31 for MOVI, BEQZ and ANDI, and one in 0..63 for SAL, SAR, LDR and STR. An operand outside
its range is refused, never truncated (R84, spec/90_conflicts.md C2). -/
def assemble (m : Mnemonic) (a : Nat) (n : Int) : Option Word :=
  let inRange : Bool := if m.signExtends then decide (-32 ≤ n ∧ n ≤ 31) else decide (0 ≤ n ∧ n ≤ 63)
  if a < Config.nregs && inRange then
    some (joinFields (opcodeMap m) (BitVec.ofNat 6 a) (BitVec.ofInt 6 n))
  else none

/-- The 16-bit cell whose low `nbits` bits are those of `w`, the bits above them zero. An instruction is one
instruction-memory cell and instruction memory holds whole words (R70, spec/20_memory.md R54), so a table word is laid
out by no byte order. -/
def tableWord (nbits w : Nat) : Word := BitVec.ofNat 16 (w % 2 ^ nbits)

/-- The instruction the decoder reads from a table word of `nbits` bits. -/
def decodeTableWord (nbits w : Nat) : Option Instr :=
  match decode (tableWord nbits w) with
  | .ok i => some i
  | .error _ => none

end Sys2Proof
end

