-- ==== Sys2Proof/Machine/State.lean ====
section
/-! DEFINITION. The state of the core, as plain data (spec/10_state.md), and its reset value
(spec/70_reset_and_hazards.md R220). -/

namespace Sys2Proof.Machine

/-- The storage spaces an index can fall outside of (spec/20_memory.md R50, R52; spec/60_exceptions.md R206). -/
inductive Space
  /-- Instruction memory, read by the Fetch stage: the `fetch` of R200. -/
  | fetch
  /-- The register file. -/
  | register
  /-- Data memory. -/
  | data
  deriving DecidableEq, Repr

/-- The two stage queues (R34, R35). -/
inductive Queue
  | fetchToDecode
  | decodeToExecute
  deriving DecidableEq, Repr

/-- A fatal error of the core with its recorded information (spec/60_exceptions.md R200 to R206). It is state: the core
that meets one enters the status `faulted` (R204). -/
inductive FatalError
  /-- Cause 1: an index is outside its space (R200, R201). -/
  | outOfBounds (space : Space) (index : Nat)
  /-- Cause 2: Execute dispatches a word whose opcode names no instruction, with the word's index (R202). -/
  | unknownOpcode (op : Opcode) (word : Word) (index : Word)
  /-- Cause 3: an enqueue into a slot that stays occupied (R203). -/
  | queueOverflow (queue : Queue)
  deriving DecidableEq, Repr

/-- The run status (R42). -/
inductive RunStatus
  | running
  | halted
  | faulted (error : FatalError)
  deriving DecidableEq, Repr

/-- A record of the F→D queue (R34). -/
structure FdRecord where
  /-- The fetched instruction word. -/
  word : Word
  /-- The fetch address + 1. -/
  pc1 : Word
  deriving DecidableEq, Repr

/-- A record of the D→E queue (R35). -/
structure DeRecord where
  /-- The original instruction word. -/
  word : Word
  /-- Copied from the F→D record. -/
  pc1 : Word
  /-- `word[15:12]` -/
  op : Opcode
  /-- The format. -/
  fmt : Format
  /-- `word[11:6]` -/
  r1 : RegIdx
  /-- `word[5:0]` of an R-format word; none for an I-format word. -/
  r2 : Option RegIdx
  /-- The extended immediate of an I-format word; none for an R-format word. -/
  imm : Option Byte
  /-- `x[r1]` read at decode. -/
  v1 : Byte
  /-- `x[r2]` read at decode for an R-format word; 0x00 for an I-format word. -/
  v2 : Byte
  /-- A hazard was detected. -/
  hazard : Bool
  /-- Use the Execute latch in place of `v1`. -/
  fwd1 : Bool
  /-- Use the Execute latch in place of `v2`. -/
  fwd2 : Bool
  /-- The LDR-after-STR memory hazard. -/
  memstall : Bool
  deriving DecidableEq, Repr

/-- The Execute latch (R37). -/
structure Latch where
  /-- Some instruction has recorded a result since reset. -/
  valid : Bool
  /-- The most recent Execute result. -/
  value : Byte
  /-- The register the result was written to; none for the value a STR stored. -/
  dest : Option RegIdx
  deriving DecidableEq, Repr

/-- Everything spec/10_state.md gives the core. -/
structure State where
  /-- The general registers R0 to R63 (R20). -/
  x : Vector Byte 64
  /-- The index of the next instruction Fetch reads (R25). -/
  pc : Word
  /-- The status register: C, V, N, S, Z at bits 0 to 4, bits 7:5 zero (R29). -/
  sreg : Byte
  /-- The F→D slot (R34). -/
  fd : Option FdRecord
  /-- The D→E slot (R35). -/
  de : Option DeRecord
  /-- The Execute latch (R37). -/
  lat : Latch
  /-- The decode-stall counter, 0 or 1 (R38). -/
  dstall : Fin 2
  /-- The execute-stall counter, 0 to 2 (R39). -/
  estall : Fin 3
  /-- The stop counter, 0 to 3 (R40). -/
  stop : Fin 4
  /-- The cycle counter, a natural number (R41). -/
  cycle : Nat
  /-- The run status (R42). -/
  status : RunStatus
  /-- Instruction memory (R43): the cells that do not hold the sentinel, by rising index (`Imem.wf`). -/
  imem : List (Nat × Word)
  /-- Data memory (R44): the cells that do not hold `Config.initData`, by rising address (`Memory.wf`). -/
  dmem : List Host.Cell
  deriving DecidableEq, Repr

/-- Why a step answers no state. No step of this core does: its fatal errors are states (R204), so this is the error a
storage operation answers to its caller. -/
inductive Fault
  /-- The storage contract's out-of-bounds error (spec/20_memory.md R52). Raised by `readRegister`, `writeRegister`,
  `readData`, `writeData` and `readInstruction`, for an index at or above the space's count. Fetch turns it into the
  fatal error of R200; a host that calls an operation directly gets it (R201). Safe: the spec gives such an access no
  value. -/
  | outOfBounds (space : Space) (index : Nat)
  deriving DecidableEq, Repr

/-- Why an instruction has no meaning here. -/
inductive Refusal
  /-- The model gives the instruction no meaning yet. Raised by an arm of `exec` only, and by none of this model's.
  Safe: the machine stops where the hardware goes on. -/
  | notModelled (mnemonic : String)
  deriving DecidableEq, Repr

/-- The reset state with given register, data and instruction memory contents: INIT_REGS, INIT_DMEM and the loaded
image are the arguments that R8 and R220 make them. -/
def State.resetWith (regs : Vector Byte 64) (dmem : List Host.Cell) (imem : List (Nat × Word)) : State where
  x := regs
  pc := 0
  sreg := 0x00
  fd := none
  de := none
  lat := { valid := false, value := 0x00, dest := none }
  dstall := 0
  estall := 0
  stop := 0
  cycle := 0
  status := .running
  imem := imem
  dmem := dmem

/-- The state right after reset (R220) with the default INIT_REGS and INIT_DMEM and no program loaded: every
instruction-memory slot is unfilled and so holds the sentinel (R226). -/
def State.reset : State := State.resetWith (Vector.replicate 64 Config.initReg) [] []

end Sys2Proof.Machine
end

