-- ==== Sys2Proof/Machine/Ops.lean ====
section
/-! DEFINITION. The named operations over registers, memories and the latch: the storage contract (spec/20_memory.md
R52), the writes Execute can make (spec/45_pipeline.md R161), the flush (R164), and the one way the core takes a fatal
error (spec/60_exceptions.md R204). The core has no handler and so no return from an error (R204, R210). -/

namespace Sys2Proof.Machine

/-! ### Cell lists: a memory as the cells that differ from what an unlisted index reads as -/

/-- The cell at index `a`; an unlisted one reads as `dflt`. -/
def Cells.read {w : Nat} (dflt : BitVec w) : List (Nat × BitVec w) → Nat → BitVec w
  | [], _ => dflt
  | (b, v) :: rest, a => if b = a then v else Cells.read dflt rest a

/-- Forget the cell at index `a`. -/
def Cells.erase {w : Nat} (m : List (Nat × BitVec w)) (a : Nat) : List (Nat × BitVec w) :=
  m.filter (fun c => c.1 != a)

/-- List the cell `(a, v)` before the first cell of a higher index. -/
def Cells.insert {w : Nat} (a : Nat) (v : BitVec w) : List (Nat × BitVec w) → List (Nat × BitVec w)
  | [] => [(a, v)]
  | (b, u) :: rest => if a < b then (a, v) :: (b, u) :: rest else (b, u) :: Cells.insert a v rest

/-- Write `v` at index `a`, listing the cell only if it differs from what an unlisted one reads as. -/
def Cells.write {w : Nat} (dflt : BitVec w) (m : List (Nat × BitVec w)) (a : Nat) (v : BitVec w) :
    List (Nat × BitVec w) :=
  if v = dflt then Cells.erase m a else Cells.insert a v (Cells.erase m a)

/-- The canonical form: indices strictly rise and lie below `bound`, and no cell holds `dflt`. -/
abbrev Cells.wf {w : Nat} (dflt : BitVec w) (bound : Nat) (m : List (Nat × BitVec w)) : Prop :=
  m.Pairwise (fun c d => c.1 < d.1) ∧ ∀ c ∈ m, c.1 < bound ∧ c.2 ≠ dflt

/-! ### Data memory and instruction memory -/

/-- What a data address that is not listed reads as: INIT_DMEM's default (R44). -/
def unlistedData : Byte := Config.initData

/-- What an instruction-memory slot that is not listed reads as: an unfilled slot holds the sentinel (R226). -/
def unfilledSlot : Word := Config.sentinel

/-- Is the word the sentinel, the mark of an empty instruction slot (R80)? -/
def isSentinel (w : Word) : Bool := w == Config.sentinel

/-- The data cell at address `a`. -/
def Memory.read (m : List Host.Cell) (a : Nat) : Byte := Cells.read unlistedData m a

/-- Data memory with `v` at address `a`. -/
def Memory.write (m : List Host.Cell) (a : Nat) (v : Byte) : List Host.Cell := Cells.write unlistedData m a v

/-- The canonical form of data memory. -/
abbrev Memory.wf (m : List Host.Cell) : Prop := Cells.wf unlistedData Config.dmemSize m

/-- The instruction-memory cell at index `a`. -/
def Imem.read (m : List (Nat × Word)) (a : Nat) : Word := Cells.read unfilledSlot m a

/-- Instruction memory with `w` at index `a`: the loader's write (R226), which no instruction makes (R63). -/
def Imem.write (m : List (Nat × Word)) (a : Nat) (w : Word) : List (Nat × Word) := Cells.write unfilledSlot m a w

/-- The canonical form of instruction memory. -/
abbrev Imem.wf (m : List (Nat × Word)) : Prop := Cells.wf unfilledSlot Config.imemSize m

/-! ### Reads and writes of the state -/

/-- `x[i]` (spec/00_scope.md R11). A 6-bit index is always in bounds (R78), and no register is hardwired (R20). -/
def readReg (i : RegIdx) (s : State) : Byte := s.x[i.toNat]'(i.isLt)

/-- `x[i] <- v` (spec/00_scope.md R11). -/
def writeReg (i : RegIdx) (v : Byte) (s : State) : State := { s with x := s.x.set i.toNat v i.isLt }

/-- The data cell at address `a`, as every claim about memory reads it. -/
def readByte (s : State) (a : Nat) : Byte := Memory.read s.dmem a

/-- The state with `v` in the data cell at address `a`. -/
def writeByte (a : Nat) (v : Byte) (s : State) : State := { s with dmem := Memory.write s.dmem a v }

/-- The state with a new status register. -/
def setSreg (v : Byte) (s : State) : State := { s with sreg := v }

/-- The state with a new Execute latch. -/
def setLatch (l : Latch) (s : State) : State := { s with lat := l }

/-! ### The storage contract (R52): `exceeds its bound` means at or above the count -/

/-- `read_register(idx)` -/
def readRegister (idx : Nat) (s : State) : Except Fault Byte :=
  if h : idx < 64 then .ok s.x[idx] else .error (.outOfBounds .register idx)

/-- `write_register(idx, v)` -/
def writeRegister (idx : Nat) (v : Byte) (s : State) : Except Fault State :=
  if h : idx < 64 then .ok { s with x := s.x.set idx v } else .error (.outOfBounds .register idx)

/-- `read_data(addr)` -/
def readData (addr : Nat) (s : State) : Except Fault Byte :=
  if addr < Config.dmemSize then .ok (readByte s addr) else .error (.outOfBounds .data addr)

/-- `write_data(addr, v)` -/
def writeData (addr : Nat) (v : Byte) (s : State) : Except Fault State :=
  if addr < Config.dmemSize then .ok (writeByte addr v s) else .error (.outOfBounds .data addr)

/-- `read_instruction(addr)` -/
def readInstruction (addr : Nat) (s : State) : Except Fault Word :=
  if addr < Config.imemSize then .ok (Imem.read s.imem addr) else .error (.outOfBounds .fetch addr)

/-! ### Taking a fatal error -/

/-- The fatal error a failed storage access of the core raises (R200, R201). -/
def FatalError.ofFault : Fault → FatalError
  | .outOfBounds space index => .outOfBounds space index

/-- Take a fatal error: the cycle commits nothing, so every field keeps its pre-state value, and the status becomes
`faulted` with the cause and its information (R204). -/
def raiseFatal (e : FatalError) (s : State) : State := { s with status := .faulted e }

/-- The cause code of a fatal error (R206). -/
def FatalError.code : FatalError → Nat
  | .outOfBounds _ _ => 1
  | .unknownOpcode _ _ _ => 2
  | .queueOverflow _ => 3

/-- The cause code of a status; 0 while running and when halted (R206). -/
def RunStatus.code : RunStatus → Nat
  | .running => 0
  | .halted => 0
  | .faulted e => e.code

/-! ### What Execute's instructions do to the state (R161, R162, R164) -/

/-- Write the result `res` to register `r1` and record it in the Execute latch (R162). -/
def writeResult (r1 : RegIdx) (res : Byte) (s : State) : State :=
  setLatch { valid := true, value := res, dest := some r1 } (writeReg r1 res s)

/-- Record the value a STR stored: the latch names no register (R162). -/
def recordStore (v : Byte) (s : State) : State := setLatch { valid := true, value := v, dest := none } s

/-- Take a branch to `target`: set the PC, empty both queues and start the branch stall (R163, R164). -/
def takeBranch (target : Word) (s : State) : State :=
  { s with pc := target, fd := none, de := none, dstall := 1, estall := 2 }

end Sys2Proof.Machine
end

