-- ==== Sys2Proof/Machine/Flags.lean ====
section
/-! DEFINITION. The status register's flags (spec/10_state.md R29) and every flag computation of spec/40_alu.md. -/

namespace Sys2Proof.Machine

/-- The five flags of SREG (R29). -/
inductive Flag
  /-- Carry -/
  | C
  /-- Overflow (two's-complement) -/
  | V
  /-- Negative -/
  | N
  /-- Sign, `N xor V` -/
  | S
  /-- Zero -/
  | Z
  deriving DecidableEq, Repr

/-- The bit of SREG that holds a flag (R29). -/
def Flag.bit : Flag → Nat
  | .C => 0
  | .V => 1
  | .N => 2
  | .S => 3
  | .Z => 4

/-- The value of a flag. -/
def getFlag (f : Flag) (sreg : Byte) : Bool := sreg.getLsbD f.bit

/-- SREG with one flag written; every other bit keeps its value. -/
def setFlag (f : Flag) (b : Bool) (sreg : Byte) : Byte :=
  if b then sreg ||| (1#8 <<< f.bit) else sreg &&& ~~~(1#8 <<< f.bit)

/-- The reserved bits 7:5 of SREG (R29). -/
def reservedBits (sreg : Byte) : BitVec 3 := sreg.extractLsb' 5 3

/-- `N(res) = res[7]` (spec/40_alu.md, common flag definitions). -/
def negativeOf (res : Byte) : Bool := res.getLsbD 7

/-- `Z(res)`: the 8-bit result is 0x00 (spec/40_alu.md, common flag definitions). -/
def zeroOf (res : Byte) : Bool := res == 0x00

/-- Signed overflow: the exact integer result lies outside -128..127 (spec/40_alu.md, common flag definitions). -/
def signedOverflow (n : Int) : Bool := decide (n < -128 ∨ 127 < n)

/-- ADD's carry (R100): bit 8 of the unsigned sum, or the signed sum compared with 255. -/
def carryOf (mode : Config.CarryMode) (a b : Byte) : Bool :=
  match mode with
  | .unsignedBit8 => decide (255 < uval a + uval b)
  | .signedLiteral => decide (255 < sval a + sval b)

/-- N and Z from the result: the flags of EOR, ANDI, SAL and SAR (R103, R105, R106, R107). -/
def logicFlags (res sreg : Byte) : Byte := setFlag .Z (zeroOf res) (setFlag .N (negativeOf res) sreg)

/-- V, N, S and Z from the exact signed result and the truncated one: the flags of SUB (R101), and all but C of ADD
(R100). -/
def signedFlags (exact : Int) (res sreg : Byte) : Byte :=
  setFlag .S (negativeOf res ^^ signedOverflow exact) (logicFlags res (setFlag .V (signedOverflow exact) sreg))

/-- ADD's flags: C, V, N, S and Z (R100). -/
def addFlags (mode : Config.CarryMode) (a b res sreg : Byte) : Byte :=
  signedFlags (sval a + sval b) res (setFlag .C (carryOf mode a b) sreg)

/-- SUB's flags: V, N, S and Z; C keeps its value (R101). -/
def subFlags (a b res sreg : Byte) : Byte := signedFlags (sval a - sval b) res sreg

/-- MUL's flags: N, Z, and in mode `update` S from the new N and the current V; C and V keep their values (R102). -/
def mulFlags (mode : Config.MulSignMode) (res sreg : Byte) : Byte :=
  match mode with
  | .update => setFlag .S (negativeOf res ^^ getFlag .V sreg) (logicFlags res sreg)
  | .keep => logicFlags res sreg

end Sys2Proof.Machine
end

