-- ==== Sys2Proof/Machine/Operands.lean ====
section
/-! DEFINITION. The operand forms Execute uses: the two register operands after forwarding (spec/45_pipeline.md R175),
the decode-time values and the pc of a branch (spec/41_control.md), shift amounts and data addresses
(spec/40_alu.md R106, spec/42_loadstore.md R142).

Execute works on the record in the D→E slot, and `step` calls `exec` with that record there. For a state whose slot is
empty, which `step` never gives `exec`, the operands are those Decode would put into the record now: the registers
named, and the PC + 1. DESIGN CHOICE (assumption 7), safe: no step depends on it. -/

namespace Sys2Proof.Machine

/-- Operand `a`: the latch value when the record's `fwd1` is set, else the r1 value read at decode (R175). -/
def operandA (r1 : RegIdx) (s : State) : Byte :=
  match s.de with
  | some r => if r.fwd1 then s.lat.value else r.v1
  | none => readReg r1 s

/-- Operand `b`: the latch value when the record's `fwd2` is set, else the r2 value read at decode (R175). -/
def operandB (r2 : RegIdx) (s : State) : Byte :=
  match s.de with
  | some r => if r.fwd2 then s.lat.value else r.v2
  | none => readReg r2 s

/-- `rec.v1` of a branch: the r1 value exactly as Decode read it, never forwarded (R130, R131). -/
def decodedV1 (r1 : RegIdx) (s : State) : Byte :=
  match s.de with
  | some r => r.v1
  | none => readReg r1 s

/-- `rec.v2` of a branch: the r2 value exactly as Decode read it, never forwarded (R131). -/
def decodedV2 (r2 : RegIdx) (s : State) : Byte :=
  match s.de with
  | some r => r.v2
  | none => readReg r2 s

/-- `rec.pc1`: the instruction's address + 1 (R34, R35). -/
def recordPc1 (s : State) : Word :=
  match s.de with
  | some r => r.pc1
  | none => s.pc + 1

/-- BEQZ's target: `(uval(pc1) + sval(imm)) mod 2^16` (R130). -/
def relativeTarget (pc1 : Word) (imm : Byte) : Word := BitVec.ofInt 16 (pc1.toNat + sval imm)

/-- BR's target: `uval(v1) * 256 + uval(v2)` (R131). -/
def pairTarget (v1 v2 : Byte) : Word := v1 ++ v2

/-- SAL's result: `trunc8(sval(a) << k)`, exact before truncation (R106). -/
def shiftLeft (a : Byte) (k : Nat) : Byte := trunc8 (sval a * 2 ^ k)

/-- SAR's result: `trunc8(floor(sval(a) / 2^k))` (R107). -/
def shiftRight (a : Byte) (k : Nat) : Byte := trunc8 (sval a / 2 ^ k)

/-- The only effective address: the immediate, unsigned (R142). -/
def effectiveAddress (imm : Byte) : Nat := uval imm

end Sys2Proof.Machine
end

