-- ==== Sys2Proof/Machine/Arith.lean ====
section
/-! DEFINITION. ADD, SUB and MUL (spec/40_alu.md R100 to R102). -/

namespace Sys2Proof.Machine

/-- ADD (R100): the truncated sum; C, V, N, S and Z. -/
def execAdd (r1 r2 : RegIdx) (s : State) : Host.Outcome State Fault Refusal :=
  let a := operandA r1 s
  let b := operandB r2 s
  let res := trunc8 (uval a + uval b)
  .next (writeResult r1 res (setSreg (addFlags Config.carryMode a b res s.sreg) s))

/-- SUB (R101): the truncated difference; V, N, S and Z. -/
def execSub (r1 r2 : RegIdx) (s : State) : Host.Outcome State Fault Refusal :=
  let a := operandA r1 s
  let b := operandB r2 s
  let res := trunc8 (sval a - sval b)
  .next (writeResult r1 res (setSreg (subFlags a b res s.sreg) s))

/-- MUL (R102): the truncated signed product; N, Z and S. -/
def execMul (r1 r2 : RegIdx) (s : State) : Host.Outcome State Fault Refusal :=
  let a := operandA r1 s
  let b := operandB r2 s
  let res := trunc8 (sval a * sval b)
  .next (writeResult r1 res (setSreg (mulFlags Config.mulSignMode res s.sreg) s))

end Sys2Proof.Machine
end

