-- ==== Sys2Proof/Machine/Control.lean ====
section
/-! DEFINITION. BEQZ and BR (spec/41_control.md R130, R131). Neither writes a register, memory, a flag or the latch. -/

namespace Sys2Proof.Machine

/-- BEQZ (R130): a branch to pc1 + imm when the decode-time r1 value is 0x00, else no effect. -/
def execBeqz (r1 : RegIdx) (imm : Byte) (s : State) : Host.Outcome State Fault Refusal :=
  if decodedV1 r1 s = 0x00 then .next (takeBranch (relativeTarget (recordPc1 s) imm) s) else .next s

/-- BR (R131): a branch to the address whose high byte is the decode-time r1 value and low byte the r2 value. -/
def execBr (r1 r2 : RegIdx) (s : State) : Host.Outcome State Fault Refusal :=
  .next (takeBranch (pairTarget (decodedV1 r1 s) (decodedV2 r2 s)) s)

end Sys2Proof.Machine
end

