-- ==== Sys2Proof/Machine/LoadStore.lean ====
section
/-! DEFINITION. LDR and STR (spec/42_loadstore.md R140, R141), through the storage contract of spec/20_memory.md R52. A
failed access would be the core's fatal error OutOfBounds; an 8-bit address never fails (spec/60_exceptions.md R201). -/

namespace Sys2Proof.Machine

/-- LDR (R140): the data cell at the unsigned immediate, read physically, also when the record carries the memory
hazard flag (spec/90_conflicts.md C1); no flag. -/
def execLdr (r1 : RegIdx) (imm : Byte) (s : State) : Host.Outcome State Fault Refusal :=
  match readData (effectiveAddress imm) s with
  | .ok res => .next (writeResult r1 res s)
  | .error f => .next (raiseFatal (.ofFault f) s)

/-- STR (R141): operand `a` to the data cell at the unsigned immediate; no register and no flag. -/
def execStr (r1 : RegIdx) (imm : Byte) (s : State) : Host.Outcome State Fault Refusal :=
  match writeData (effectiveAddress imm) (operandA r1 s) s with
  | .ok t => .next (recordStore (operandA r1 s) t)
  | .error f => .next (raiseFatal (.ofFault f) s)

end Sys2Proof.Machine
end

