-- ==== Sys2Proof/Machine/Logic.lean ====
section
/-! DEFINITION. EOR, ANDI, MOVI, SAL and SAR (spec/40_alu.md R103 to R107). -/

namespace Sys2Proof.Machine

/-- Write a result to r1 with the N and Z flags of R103 and R105 to R107. -/
def writeLogicResult (r1 : RegIdx) (res : Byte) (s : State) : State :=
  writeResult r1 res (setSreg (logicFlags res s.sreg) s)

/-- EOR (R103): bitwise exclusive or; N and Z. -/
def execEor (r1 r2 : RegIdx) (s : State) : Host.Outcome State Fault Refusal :=
  .next (writeLogicResult r1 (operandA r1 s ^^^ operandB r2 s) s)

/-- MOVI (R104): the sign-extended immediate; no flag. -/
def execMovi (r1 : RegIdx) (imm : Byte) (s : State) : Host.Outcome State Fault Refusal :=
  .next (writeResult r1 imm s)

/-- ANDI (R105): bitwise and with the sign-extended immediate; N and Z. -/
def execAndi (r1 : RegIdx) (imm : Byte) (s : State) : Host.Outcome State Fault Refusal :=
  .next (writeLogicResult r1 (operandA r1 s &&& imm) s)

/-- SAL (R106): arithmetic shift left by the unsigned immediate; N and Z. -/
def execSal (r1 : RegIdx) (imm : Byte) (s : State) : Host.Outcome State Fault Refusal :=
  .next (writeLogicResult r1 (shiftLeft (operandA r1 s) (uval imm)) s)

/-- SAR (R107): arithmetic shift right by the unsigned immediate; N and Z. -/
def execSar (r1 : RegIdx) (imm : Byte) (s : State) : Host.Outcome State Fault Refusal :=
  .next (writeLogicResult r1 (shiftRight (operandA r1 s) (uval imm)) s)

end Sys2Proof.Machine
end

