-- ==== Sys2Proof/Machine/Dispatch.lean ====
section
/-! DEFINITION. `exec`: what the Execute stage's dispatch of one instruction does (spec/45_pipeline.md R160, R161), one
arm per constructor of `Instr`. -/

namespace Sys2Proof.Machine

def exec (i : Instr) (s : State) : Host.Outcome State Fault Refusal :=
  match i with
  | .add r1 r2 => Sys2Proof.Machine.execAdd r1 r2 s
  | .sub r1 r2 => Sys2Proof.Machine.execSub r1 r2 s
  | .mul r1 r2 => Sys2Proof.Machine.execMul r1 r2 s
  | .movi r1 imm => Sys2Proof.Machine.execMovi r1 imm s
  | .beqz r1 imm => Sys2Proof.Machine.execBeqz r1 imm s
  | .andi r1 imm => Sys2Proof.Machine.execAndi r1 imm s
  | .eor r1 r2 => Sys2Proof.Machine.execEor r1 r2 s
  | .br r1 r2 => Sys2Proof.Machine.execBr r1 r2 s
  | .sal r1 imm => Sys2Proof.Machine.execSal r1 imm s
  | .sar r1 imm => Sys2Proof.Machine.execSar r1 imm s
  | .ldr r1 imm => Sys2Proof.Machine.execLdr r1 imm s
  | .str r1 imm => Sys2Proof.Machine.execStr r1 imm s

end Sys2Proof.Machine
end

