-- ==== Sys2Proof/Machine/Stages.lean ====
section
/-! DEFINITION. The three stages as functions of the pre-state (spec/45_pipeline.md R150): Fetch (R152, R153), Decode
with the hazard unit (R155, R156, R169 to R174; spec/30_encoding.md R81) and Execute (R158 to R160). -/

namespace Sys2Proof.Machine

/-! ### Fetch -/

/-- What Fetch hands to the commit: the record it enqueues, and the PC and stop counter it leaves (R152). -/
structure FetchResult where
  record : Option FdRecord
  pc : Word
  stop : Fin 4
  deriving DecidableEq, Repr

/-- Is Fetch blocked: has the stop counter reached the threshold (R153)? -/
def fetchBlocked (s : State) : Bool := Config.stopThreshold ≤ s.stop.val

/-- The Fetch stage (R152): nothing when blocked; a fatal error at an index outside instruction memory (R200); a count
when it reads the sentinel; else a record and the next PC. -/
def fetchStage (s : State) : Except FatalError FetchResult :=
  if fetchBlocked s then .ok { record := none, pc := s.pc, stop := s.stop }
  else
    match readInstruction s.pc.toNat s with
    | .error f => .error (.ofFault f)
    | .ok w =>
      if isSentinel w then .ok { record := none, pc := s.pc, stop := s.stop + 1 }
      else .ok { record := some { word := w, pc1 := s.pc + 1 }, pc := s.pc + 1, stop := 0 }

/-! ### Decode -/

/-- The decoder's record (R81): the fields of the word, the operand values read from the register file, and no hazard
flag yet. It is total: a word whose opcode names no instruction is I-format (R72). -/
def decodeRecord (word pc1 : Word) (s : State) : DeRecord where
  word := word
  pc1 := pc1
  op := opField word
  fmt := formatOf (opField word)
  r1 := r1Field word
  r2 := match formatOf (opField word) with
    | .r => some (lowField word)
    | .i => none
  imm := match formatOf (opField word) with
    | .r => none
    | .i => some (extendImm (opField word) (lowField word))
  v1 := readReg (r1Field word) s
  v2 := match formatOf (opField word) with
    | .r => readReg (lowField word) s
    | .i => 0x00
  hazard := false
  fwd1 := false
  fwd2 := false
  memstall := false

/-- Is the opcode value that of a branch, BEQZ or BR (R169)? -/
def isBranchOp (op : Opcode) : Bool := op == opcodeMap .beqz || op == opcodeMap .br

/-- The instructions that write their register r1 (R170). -/
def producers : List Mnemonic := [.add, .sub, .mul, .eor, .movi, .andi, .sal, .sar, .ldr]

/-- Is the opcode value that of a producer (R170)? -/
def isProducer (op : Opcode) : Bool := producers.any (fun m => opcodeMap m == op)

/-- Does the incoming record's r1 name a register it reads: is it neither LDR nor MOVI (R172, rule 3)? -/
def consumesR1 (op : Opcode) : Bool := op != opcodeMap .ldr && op != opcodeMap .movi

/-- Rule 2: a LDR after a STR to the same address (R171). -/
def memoryHazard (inc ex : DeRecord) : Bool :=
  inc.op == opcodeMap .ldr && ex.op == opcodeMap .str && inc.imm == ex.imm

/-- Rule 3: r1 of the incoming record is the register the executing producer writes (R172). -/
def forwardsR1 (inc ex : DeRecord) : Bool := isProducer ex.op && consumesR1 inc.op && inc.r1 == ex.r1

/-- Rule 4: r2 of the incoming R-format record is the register the executing producer writes (R172). -/
def forwardsR2 (inc ex : DeRecord) : Bool := isProducer ex.op && inc.fmt == .r && inc.r2 == some ex.r1

/-- The hazard unit (R174): the incoming record with its four flags, from the record now in the D→E slot. A branch and
a record with nothing executing before it get none (R169). -/
def hazardUnit (inc : DeRecord) (ex : Option DeRecord) : DeRecord :=
  let clear := { inc with hazard := false, fwd1 := false, fwd2 := false, memstall := false }
  if isBranchOp inc.op then clear
  else
    match ex with
    | none => clear
    | some e =>
      { clear with
        memstall := memoryHazard inc e
        fwd1 := forwardsR1 inc e
        fwd2 := forwardsR2 inc e
        hazard := memoryHazard inc e || forwardsR1 inc e || forwardsR2 inc e }

/-- Does Decode dequeue the F→D slot in this cycle (R155, R156)? -/
def decodePops (s : State) : Bool := s.dstall == 0 && s.fd.isSome

/-- The record Decode enqueues in this cycle: none while stalled or with an empty slot (R155, R156, R207). -/
def decodeStage (s : State) : Option DeRecord :=
  if s.dstall = 0 then s.fd.map (fun r => hazardUnit (decodeRecord r.word r.pc1 s) s.de) else none

/-- The decode-stall counter Decode leaves: one less while it is nonzero (R155). -/
def decodeStallAfter (s : State) : Fin 2 := if s.dstall = 0 then 0 else s.dstall - 1

/-! ### Execute -/

/-- Does Execute dequeue the D→E slot in this cycle (R158, R160)? -/
def executePops (s : State) : Bool := s.estall == 0 && s.de.isSome

/-- The fatal error of dispatching a record whose opcode names no instruction (R202). -/
def unknownOpcodeOf (r : DeRecord) : FatalError := .unknownOpcode r.op r.word (r.pc1 - 1)

/-- The Execute stage: stalled, it counts its stall down (R158); with an empty slot it is idle (R159); else it performs
the instruction of the record in the slot, or takes the fatal error of a reserved opcode (R160, R202). The instruction is
read from the record's word, of which its other fields are functions (R81). DEDUCED (assumption 8), safe. -/
def executeStage (s : State) : Host.Outcome State Fault Refusal :=
  if s.estall = 0 then
    match s.de with
    | none => .next s
    | some r =>
      match decode r.word with
      | .error _ => .next (raiseFatal (unknownOpcodeOf r) s)
      | .ok i => exec i s
  else .next { s with estall := s.estall - 1 }

end Sys2Proof.Machine
end

