-- ==== Sys2Proof/Machine/Cycle.lean ====
section
/-! DEFINITION. The queue discipline (spec/45_pipeline.md R154, R157), the commit (R163 to R167, R180) and the whole cycle
(R185). -/

namespace Sys2Proof.Machine

/-- Fetch enqueues into a F→D slot that Decode does not empty in this cycle (R154). -/
def fdOverflows (s : State) (f : FetchResult) : Bool := f.record.isSome && s.fd.isSome && !decodePops s

/-- Decode enqueues into a D→E slot that Execute does not empty in this cycle (R157). -/
def deOverflows (s : State) : Bool := (decodeStage s).isSome && s.de.isSome && !executePops s

/-- Did Execute, acting on `s` and leaving `e`, take a branch? Execute acts only with no execute-stall, and of its effects
only a taken branch starts one (R161, R164). -/
def branchTaken (s e : State) : Bool := executePops s && e.estall != 0

/-- A queue slot at the commit of a cycle without a taken branch (R165): the record enqueued, if any; else empty when the
slot was dequeued; else as it was. -/
def slotAfter {α : Type} (enqueued : Option α) (dequeued : Bool) (slot : Option α) : Option α :=
  match enqueued with
  | some r => some r
  | none => if dequeued then none else slot

/-- The status at the commit: `halted` once the stop counter has reached the threshold and the D→E slot is empty
(R180). -/
def statusAfter (stop : Fin 4) (de : Option DeRecord) : RunStatus :=
  if Config.stopThreshold ≤ stop.val ∧ de = none then .halted else .running

/-- The state at the commit, before its stop counter, cycle counter and status are set: Execute's effects on `e`, and on
the PC, the slots and the decode-stall counter those of a taken branch (R163, R164), or else those of the stages (R163,
R165, R166). -/
def commitStages (s : State) (f : FetchResult) (e : State) : State :=
  if branchTaken s e then e
  else
    { e with
      pc := f.pc
      fd := slotAfter f.record (decodePops s) s.fd
      de := slotAfter (decodeStage s) (executePops s) s.de
      dstall := decodeStallAfter s }

/-- The commit of a cycle without a fatal error: Fetch's stop counter (R167), one more cycle (R41) and the termination
test (R180). -/
def commit (s : State) (f : FetchResult) (e : State) : State :=
  let t := commitStages s f e
  { t with stop := f.stop, cycle := s.cycle + 1, status := statusAfter f.stop t.de }

/-- The whole cycle of a running core (R185). Of several fatal errors the first in the order of R205 is taken: Fetch, then
Execute, then the F→D queue, then the D→E queue; and the cycle that takes one commits nothing (R204). -/
def cycleStep (s : State) : Host.Outcome State Fault Refusal :=
  match fetchStage s with
  | .error err => .next (raiseFatal err s)
  | .ok f =>
    match executeStage s with
    | .fault x => .fault x
    | .refused x => .refused x
    | .next e =>
      match e.status with
      | .faulted err => .next (raiseFatal err s)
      | _ =>
        if fdOverflows s f then .next (raiseFatal (.queueOverflow .fetchToDecode) s)
        else if deOverflows s then .next (raiseFatal (.queueOverflow .decodeToExecute) s)
        else .next (commit s f e)

/-- One clock edge: a running core takes a cycle (R187); a halted or faulted one takes none, and its state does not change
(R42, R181). -/
def clockEdge (s : State) : Host.Outcome State Fault Refusal :=
  match s.status with
  | .running => cycleStep s
  | .halted => .next s
  | .faulted _ => .next s

end Sys2Proof.Machine
end

