-- ==== Sys2Proof/Machine/Loader.lean ====
section
/-! DEFINITION. What the host does before a run (spec/70_reset_and_hazards.md R225, R226), and the placement of one word
so that the next cycle executes it. -/

namespace Sys2Proof.Machine

/-- Instruction memory with the words `ws` from index `a` on, over `m`. -/
def loadFrom (m : List (Nat × Word)) : Nat → List Word → List (Nat × Word)
  | _, [] => m
  | a, w :: ws => loadFrom (Imem.write m a w) (a + 1) ws

/-- The loaded image of a program (R226): its words at indices 0 to n-1, and the sentinel at every other index. A word that
is no instruction is loaded as it is. None for a program longer than instruction memory, which has no image. -/
def loadImage (program : List Word) : Option (List (Nat × Word)) :=
  if program.length ≤ Config.imemSize then some (loadFrom [] 0 program) else none

/-- Data memory with the given contents written cell by cell: INIT_DMEM (R225). A pair at or above the count names no cell
(R50) and is left out. -/
def initDmem (cells : List Host.Cell) : List Host.Cell :=
  cells.foldl (fun m c => if c.1 < Config.dmemSize then Memory.write m c.1 c.2 else m) []

/-- The state a run starts from (R225): the image loaded, the register file and data memory at INIT_REGS and INIT_DMEM,
and reset applied. -/
def State.boot (program : List Word) (regs : Vector Byte 64) (cells : List Host.Cell) : Option State :=
  (loadImage program).map (State.resetWith regs (initDmem cells))

/-- The index a placed word gets: the PC, or 0 where the next cycle could not fetch at the PC + 1. -/
def placeIndex (s : State) : Word := if s.pc.toNat + 1 < Config.imemSize then s.pc else 0

/-- The state in which the next cycle executes `word`. An instruction executes two cycles after its fetch (R240), so the
word is stored at the PC, the PC has moved past it, the F→D slot is empty and the D→E slot holds the record Decode makes of
it, with neither stage stalled and the core running. The sentinel, which is never decoded (R80), is only stored at the PC.
DESIGN CHOICE (assumption 9), safe. -/
def placeForExecute (word : Word) (s : State) : State :=
  let at' := placeIndex s
  let stored := { s with imem := Imem.write s.imem at'.toNat word, fd := none, dstall := 0, estall := 0, status := .running }
  if isSentinel word then { stored with pc := at', de := none }
  else { stored with pc := at' + 1, de := some (decodeRecord word (at' + 1) s) }

end Sys2Proof.Machine
end

