-- ==== Sys2Proof/Machine/Step.lean ====
section
/-! DEFINITION. One step of the core, which is one clock edge (spec/45_pipeline.md R185, R187), and the placement of a
table word where the next step runs it. -/

namespace Sys2Proof.Machine

/-- One step: one clock edge (R187). -/
def step (s : State) : Host.Outcome State Fault Refusal := clockEdge s

/-- `s` with the table word `w` of `nbits` bits placed so that the next step executes it (assumption 9). -/
def State.withFetchWord (s : State) (nbits w : Nat) : State := placeForExecute (tableWord nbits w) s

end Sys2Proof.Machine
end

