-- ==== Sys2Proof/Machine/Trace.lean ====
section
/-! DEFINITION. The outputs of a cycle (spec/45_pipeline.md R183, R188). They are functions of the pre-state and of the
cycle's actions, they are not stored (spec/10_state.md R45), and nothing reads them. -/

namespace Sys2Proof.Machine

/-- What Fetch did (R188). -/
inductive FetchTrace
  | blocked
  | sentinel (pc : Word)
  | fetched (pc word : Word)
  /-- The fetch raised OutOfBounds (R200). -/
  | outOfBounds (pc : Word)
  deriving DecidableEq, Repr

/-- What Decode did (R188). -/
inductive DecodeTrace
  | stalled
  | idle
  | produced (record : DeRecord)
  deriving DecidableEq, Repr

/-- What Execute did (R188): the opcode, the operands after forwarding and the result written, if one was. -/
inductive ExecuteTrace
  | stalled
  | idle
  | performed (op : Opcode) (a b : Byte) (result : Option Byte)
  deriving DecidableEq, Repr

/-- The deltas of a cycle (R188). -/
structure Deltas where
  register : Option (RegIdx × Byte)
  data : Option (Nat × Byte)
  sreg : Byte
  pc : Word
  flushed : Bool
  deriving DecidableEq, Repr

/-- All a cycle presents (R188). -/
structure Trace where
  fetch : FetchTrace
  decode : DecodeTrace
  execute : ExecuteTrace
  deltas : Deltas
  runComplete : Bool
  cycle : Nat
  status : RunStatus
  deriving DecidableEq, Repr

/-- Fetch's entry for a cycle from `s`. -/
def fetchTrace (s : State) : FetchTrace :=
  if fetchBlocked s then .blocked
  else
    match readInstruction s.pc.toNat s with
    | .error _ => .outOfBounds s.pc
    | .ok w => if isSentinel w then .sentinel s.pc else .fetched s.pc w

/-- Does Fetch end the cycle from `s` before Decode and Execute act, by raising OutOfBounds (R185, R200)? -/
def endsAtFetch (s : State) : Bool :=
  match fetchStage s with
  | .error _ => true
  | .ok _ => false

/-- Decode's entry for a cycle from `s`. R188 gives none for a faulting cycle. One that ends at Fetch shows Decode idle, its
stall counter whatever it is, as program P6's cycle 7 does (spec/95_test_vectors.md); one that ends after Decode has acted
shows what Decode did, as program P7's cycle 4 does. DEDUCED (assumption 13), safe; for a QueueOverflow, which no vector
shows, DESIGN CHOICE (assumption 13), safe. -/
def decodeTrace (s : State) : DecodeTrace :=
  if endsAtFetch s then .idle
  else if s.dstall = 0 then
    match decodeStage s with
    | none => .idle
    | some r => .produced r
  else .stalled

/-- The record whose instruction the cycle from `s` to `t` performed: the one Execute dequeued, unless the cycle took a
fatal error and so committed nothing (R204). -/
def performedRecord (s t : State) : Option DeRecord :=
  match t.status with
  | .faulted _ => none
  | _ => if s.estall = 0 then s.de else none

/-- Is the record's instruction one that records a result in the Execute latch, so any but a branch (R162)? -/
def recordsResult (r : DeRecord) : Bool := !isBranchOp r.op

/-- Execute's entry for the cycle from `s` to `t`: the result is the value the latch recorded (R162). R188 gives no entry for
a faulting cycle. One that ends at Fetch shows Execute idle, its stall counter whatever it is, as program P6's cycle 7 does,
and one with UnknownOpcode shows it idle, as program P7's cycle 4 does (spec/95_test_vectors.md). DEDUCED (assumption 13),
safe. One with a QueueOverflow shows it stalled when its stall counter is not 0 and else idle: DESIGN CHOICE
(assumption 13), safe. -/
def executeTrace (s t : State) : ExecuteTrace :=
  if endsAtFetch s then .idle
  else if s.estall = 0 then
    match performedRecord s t with
    | none => .idle
    | some r =>
      .performed r.op (operandA r.r1 s) (operandB (lowField r.word) s) (if recordsResult r then some t.lat.value else none)
  else .stalled

/-- The register the cycle from `s` to `t` wrote, with its value. -/
def registerDelta (s t : State) : Option (RegIdx × Byte) :=
  (performedRecord s t).bind (fun r => if isProducer r.op then some (r.r1, readReg r.r1 t) else none)

/-- The data cell the cycle from `s` to `t` wrote, with its value: a STR's (R141). -/
def dataDelta (s t : State) : Option (Nat × Byte) :=
  (performedRecord s t).bind (fun r =>
    if r.op = opcodeMap .str then some (effectiveAddress (zextImm (lowField r.word)), t.lat.value) else none)

/-- `run_complete` (R183): Execute dequeued a record and the D→E slot is empty after the commit. -/
def runComplete (s t : State) : Bool := (performedRecord s t).isSome && t.de.isNone

/-- The trace of the cycle from `s` to `t`. -/
def traceOf (s t : State) : Trace where
  fetch := fetchTrace s
  decode := decodeTrace s
  execute := executeTrace s t
  deltas :=
    { register := registerDelta s t
      data := dataDelta s t
      sreg := t.sreg
      pc := t.pc
      flushed := (performedRecord s t).isSome && t.estall != 0 }
  runComplete := runComplete s t
  cycle := t.cycle
  status := t.status

/-- What the block presents after the next clock edge: nothing when the core takes no cycle (R181, R187). -/
def trace (s : State) : Option Trace :=
  match s.status, step s with
  | .running, .next t => some (traceOf s t)
  | _, _ => none

end Sys2Proof.Machine
end

