-- ==== Sys2Proof/Safety.lean ====
section
/-! DEFINITION. The words the claims are stated in: what an instruction reads, writes and branches to, frames between two
states, and the invariant of spec/45_pipeline.md R182. -/

namespace Sys2Proof.Machine

/-! ### What an instruction reads and writes -/

/-- The instructions that read r1 in Execute, branches aside (R182, item 5). -/
def readsR1 (m : Mnemonic) : Bool :=
  match m with
  | .add | .sub | .mul | .eor | .andi | .sal | .sar | .str => true
  | .movi | .beqz | .br | .ldr => false

/-- The instructions that read r2 in Execute, branches aside (R182, item 5). -/
def readsR2 (m : Mnemonic) : Bool :=
  match m with
  | .add | .sub | .mul | .eor => true
  | .movi | .beqz | .andi | .br | .sal | .sar | .ldr | .str => false

/-- The instructions that write r1 (spec/10_state.md R22). -/
def writesR1 (m : Mnemonic) : Bool :=
  match m with
  | .add | .sub | .mul | .movi | .andi | .eor | .sal | .sar | .ldr => true
  | .beqz | .br | .str => false

/-- The flags an instruction writes (spec/10_state.md R30). -/
def flagsWritten (m : Mnemonic) : List Flag :=
  match m with
  | .add => [.C, .V, .N, .S, .Z]
  | .sub => [.V, .N, .S, .Z]
  | .mul => [.N, .S, .Z]
  | .eor | .andi | .sal | .sar => [.N, .Z]
  | .movi | .beqz | .br | .ldr | .str => []

/-- Is the instruction a branch? -/
def isBranch (m : Mnemonic) : Bool :=
  match m with
  | .beqz | .br => true
  | .add | .sub | .mul | .movi | .andi | .eor | .sal | .sar | .ldr | .str => false

/-- Where an instruction executed on `s` branches to: none for a BEQZ not taken and for every instruction that is no
branch (spec/41_control.md R130, R131). -/
def branchTargetOf (i : Instr) (s : State) : Option Word :=
  match i with
  | .beqz r1 imm => if decodedV1 r1 s = 0x00 then some (relativeTarget (recordPc1 s) imm) else none
  | .br r1 r2 => some (pairTarget (decodedV1 r1 s) (decodedV2 r2 s))
  | .add _ _ | .sub _ _ | .mul _ _ | .movi _ _ | .andi _ _ | .eor _ _ | .sal _ _ | .sar _ _ | .ldr _ _ | .str _ _ => none

/-- The instruction Execute performs in a cycle from `s`: that of the record in the D→E slot, when Execute is not
stalled and the word is an instruction (R158 to R160). -/
def executing (s : State) : Option Instr :=
  if s.estall = 0 then
    match s.de with
    | none => none
    | some r =>
      match decode r.word with
      | .ok i => some i
      | .error _ => none
  else none

/-- The target of the branch a cycle from `s` takes, if it takes one. -/
def takenTarget (s : State) : Option Word := (executing s).bind (fun i => branchTargetOf i s)

/-- The word at the PC, which Fetch reads. -/
def wordAtPc (s : State) : Word := Imem.read s.imem s.pc.toNat

/-! ### Frames -/

/-- The PC, the queues, the counters and the status of `t` are those of `s`. -/
def SameControl (s t : State) : Prop :=
  t.pc = s.pc ∧ t.fd = s.fd ∧ t.de = s.de ∧ t.dstall = s.dstall ∧ t.estall = s.estall ∧ t.stop = s.stop ∧
    t.cycle = s.cycle ∧ t.status = s.status

/-- Every register of `t` is that of `s`. -/
def SameRegs (s t : State) : Prop := ∀ q, readReg q t = readReg q s

/-- Every register of `t` but `r` is that of `s`. -/
def SameRegsExcept (r : RegIdx) (s t : State) : Prop := ∀ q, q ≠ r → readReg q t = readReg q s

/-- Every byte of data memory of `t` is that of `s`. -/
def SameData (s t : State) : Prop := ∀ a, readByte t a = readByte s a

/-- Every byte of data memory of `t` but the one at address `b` is that of `s`. -/
def SameDataExcept (b : Nat) (s t : State) : Prop := ∀ a, a ≠ b → readByte t a = readByte s a

/-- Every flag of `t` outside `fs`, and the reserved bits of SREG, are those of `s`. -/
def SameFlagsExcept (fs : List Flag) (s t : State) : Prop :=
  (∀ f, f ∉ fs → getFlag f t.sreg = getFlag f s.sreg) ∧ reservedBits t.sreg = reservedBits s.sreg

/-- The status is not that of a fatal error. -/
def NotFaulted (s : State) : Prop := ∀ e, s.status ≠ .faulted e

/-! ### The invariant of R182 -/

/-- A D→E record is one the decoder and the hazard unit make: its fields are those of its word, which is not the sentinel,
and its hazard flag is the disjunction of the other three (spec/30_encoding.md R81, spec/45_pipeline.md R173); two reads of
one register gave one value. A branch
carries no forward flag and only an R-format record carries fwd2 (R169, R172). -/
structure RecordOk (r : DeRecord) : Prop where
  word : isSentinel r.word = false
  op : r.op = opField r.word
  fmt : r.fmt = formatOf (opField r.word)
  r1 : r.r1 = r1Field r.word
  r2 : r.r2 = if r.fmt = .r then some (lowField r.word) else none
  imm : r.imm = if r.fmt = .r then none else some (extendImm (opField r.word) (lowField r.word))
  v2 : r.fmt = .i → r.v2 = 0x00
  same : r.r2 = some r.r1 → r.v1 = r.v2
  hazard : r.hazard = (r.memstall || r.fwd1 || r.fwd2)
  branch : isBranchOp r.op = true → r.hazard = false
  fwd2 : r.fwd2 = true → r.fmt = .r

/-- A forward flag is backed by the latch: it holds the value of the register the flagged operand names (R182, item 4). -/
def ForwardsBacked (s : State) (r : DeRecord) : Prop :=
  (r.fwd1 = true → s.lat = { valid := true, value := readReg r.r1 s, dest := some r.r1 }) ∧
    (r.fwd2 = true → ∀ q, r.r2 = some q → s.lat = { valid := true, value := readReg q s, dest := some q })

/-- The operands Execute will use are the current register values, for every operand the instruction reads but those of a
branch (R182, item 5). -/
def OperandsCurrent (s : State) (r : DeRecord) : Prop :=
  ∀ m, mnemonicOf r.op = some m →
    (readsR1 m = true → operandA r.r1 s = readReg r.r1 s) ∧
      (readsR2 m = true → ∀ q, r.r2 = some q → operandB q s = readReg q s)

/-- A memory-hazard flag is backed by the latch: it holds the data cell the LDR will read (R182, item 6). -/
def MemstallBacked (s : State) (r : DeRecord) : Prop :=
  r.memstall = true → ∀ a, r.imm = some a → s.lat.value = readByte s (effectiveAddress a)

/-- The three states of the branch flush FSM with what the slots hold in them (R168; R182, items 1 and 2). -/
def FlushFsmOk (s : State) : Prop :=
  (s.dstall = 0 ∧ s.estall = 0) ∨ (s.dstall = 1 ∧ s.estall = 2 ∧ s.fd = none ∧ s.de = none) ∨
    (s.dstall = 0 ∧ s.estall = 1 ∧ s.de = none)

/-- What holds in every state reachable from reset (R182), with the canonical form of the memories and the reserved bits
of SREG (spec/10_state.md R29). Items 7 and 8 of R182 are `halted` and `running`, which rest on `stopFd` and `stopDe`. -/
structure Inv (s : State) : Prop where
  dmem : Memory.wf s.dmem
  imem : Imem.wf s.imem
  sreg : reservedBits s.sreg = 0
  fd : ∀ r, s.fd = some r → isSentinel r.word = false
  de : ∀ r, s.de = some r → RecordOk r ∧ ForwardsBacked s r ∧ OperandsCurrent s r ∧ MemstallBacked s r
  fsm : FlushFsmOk s
  stopFd : s.stop ≠ 0 → s.fd = none
  stopDe : 2 ≤ s.stop.val → s.de = none
  running : s.status = .running → s.stop.val < 3
  halted : s.status = .halted → s.stop = 3 ∧ s.fd = none ∧ s.de = none

end Sys2Proof.Machine
end

