-- ==== Sys2Proof/Certificates/Slice0/Obligations.lean ====
section
/-! DEFINITION. The statements for the provers. Each docstring names the rule of spec/ it formalises, or the rules it is
derived from. -/

open Sys2Proof Sys2Proof.Machine

/-! ### Encoding -/

/-- Decoding the word of a well-formed instruction gives the instruction back, every operand included (from R71 to R74 and
R77). -/
def Obligations.DecodeInvertsEncode : Prop :=
  ∀ i : Instr, WellFormed i = true → decode (encode i) = .ok i

/-- From R78: a word whose opcode field is in the image of OPCODE_MAP is an instruction, for every value of its other 12 bits;
it is the word of that instruction, so no bit of it is ignored; and every register index may stand in every register field,
the same one in both. -/
def Obligations.EveryWordWithADefinedOpcodeIsAnInstruction : Prop :=
  (∀ w : Word, (∃ m, opcodeMap m = opField w) → ∃ i, decode w = .ok i ∧ WellFormed i = true ∧ encode i = w) ∧
    (∀ (m : Mnemonic) (a b : RegIdx), decode (joinFields (opcodeMap m) a b) = .ok (instrOf m a b)) ∧
    (∀ a b : RegIdx, instrOf .add a b = .add a b ∧ instrOf .sub a b = .sub a b ∧ instrOf .mul a b = .mul a b ∧
      instrOf .eor a b = .eor a b ∧ instrOf .br a b = .br a b)

/-- From R82: a decoder written from the opcode table alone, which matches a word against each row's mask 0xF000 and match,
finds exactly one row for an opcode value of 0 to 11 and none for 12 to 15; and `decode` finds that row's instruction. -/
def Obligations.OpcodeTableRowsMatchExactlyOnce : Prop :=
  ∀ w : Word,
    ((opField w).toNat ≤ 11 → ∃! m : Mnemonic, w &&& 0xF000#16 = opcodeMap m ++ 0#12) ∧
      (12 ≤ (opField w).toNat → ∀ m : Mnemonic, w &&& 0xF000#16 ≠ opcodeMap m ++ 0#12) ∧
      (∀ i, decode w = .ok i → w &&& 0xF000#16 = opcodeMap i.mnemonic ++ 0#12)

/-- A word with an opcode value of 12 to 15 is no instruction, by name: the sentinel, or an unknown opcode (from R79 and
R80). -/
def Obligations.ReservedWordsAreRefusedByName : Prop :=
  decode 0xFFFF#16 = .error .sentinel ∧
    ∀ w : Word, w ≠ 0xFFFF#16 → (12 ≤ (opField w).toNat ↔ decode w = .error (.unknownOpcode (opField w)))

/-- R75: the sign extension of a 6-bit field is the field with 0xC0 when bit 5 is set, and then negative, and the field
unchanged when it is clear. -/
def Obligations.SignExtensionIdentity : Prop :=
  ∀ f : BitVec 6,
    (f.getLsbD 5 = true → sextImm f = f.setWidth 8 ||| 0xC0#8 ∧ sval (sextImm f) < 0) ∧
      (f.getLsbD 5 = false → sextImm f = f.setWidth 8 ∧ 0 ≤ sval (sextImm f))

/-- The assembler's encoding of an operand pair, and its refusal of one out of range (from R84 and R71). -/
def Obligations.AssemblerEncodesInRangeAndRefusesTheRest : Prop :=
  ∀ (m : Mnemonic) (a : Nat) (n : Int),
    let inRange := if m.signExtends = true then -32 ≤ n ∧ n ≤ 31 else 0 ≤ n ∧ n ≤ 63
    (a < 64 ∧ inRange →
        ∃ w, assemble m a n = some w ∧ (w.toNat : Int) = (opcodeMap m).toNat * 4096 + a * 64 + n % 64) ∧
      (¬(a < 64 ∧ inRange) → assemble m a n = none)

/-- Words written out from R71 to R77, one for each instruction, decode to the instruction they stand for. A sanity
statement. -/
def Obligations.SampleWordsDecode : Prop :=
  decode 0b0000000001000010#16 = .ok (.add 1 2) ∧ decode 0b0001000100000101#16 = .ok (.sub 4 5) ∧
    decode 0b0010000011000011#16 = .ok (.mul 3 3) ∧ decode 0b0011000011111111#16 = .ok (.movi 3 0xFF) ∧
    decode 0b0100000000111011#16 = .ok (.beqz 0 0xFB) ∧ decode 0b0101111111100000#16 = .ok (.andi 63 0xE0) ∧
    decode 0b0110000010000011#16 = .ok (.eor 2 3) ∧ decode 0b0111010100010101#16 = .ok (.br 20 21) ∧
    decode 0b1000001000111111#16 = .ok (.sal 8 0x3F) ∧ decode 0b1001111111000000#16 = .ok (.sar 63 0) ∧
    decode 0b1010001011000111#16 = .ok (.ldr 11 7) ∧ decode 0b1011001010000111#16 = .ok (.str 10 7)

/-! ### The instructions: each result statement is also the statement that the instruction completes -/

/-- R100, ADD: the truncated sum in r1, all five flags, the latch, and nothing else; the two CARRY_MODEs; the equivalent
forms of the result and of V; with r1 = r2 the doubled value, from equal operands, in a state of the invariant; that no other
instruction writes C; and the encoding. -/
def Obligations.AddWritesSumFlagsAndLatch : Prop :=
  (∀ (r1 r2 : RegIdx) (s : State),
    let a := operandA r1 s
    let b := operandB r2 s
    let res := trunc8 (uval a + uval b)
    ∃ t, exec (.add r1 r2) s = .next t ∧ readReg r1 t = res ∧ SameRegsExcept r1 s t ∧
      getFlag .C t.sreg = decide (uval a + uval b > 255) ∧
      getFlag .V t.sreg = decide (sval a + sval b < -128 ∨ sval a + sval b > 127) ∧
      getFlag .N t.sreg = res.getLsbD 7 ∧
      getFlag .S t.sreg = (getFlag .N t.sreg ^^ getFlag .V t.sreg) ∧
      getFlag .Z t.sreg = decide (res = 0x00) ∧
      reservedBits t.sreg = reservedBits s.sreg ∧
      t.lat = { valid := true, value := res, dest := some r1 } ∧
      SameData s t ∧ SameControl s t ∧ t.imem = s.imem) ∧
    (∀ a b : Byte,
      trunc8 (uval a + uval b) = trunc8 (sval a + sval b) ∧
        (decide (sval a + sval b < -128 ∨ sval a + sval b > 127) = true ↔
          a.getLsbD 7 = b.getLsbD 7 ∧ (trunc8 (uval a + uval b)).getLsbD 7 ≠ a.getLsbD 7)) ∧
    (∀ a b res sreg : Byte, getFlag .C (addFlags .signedLiteral a b res sreg) = decide (sval a + sval b > 255) ∧
      getFlag .C (addFlags .signedLiteral a b res sreg) = false) ∧
    (∀ (q : RegIdx) (s t : State) (r : DeRecord), Inv s → s.de = some r → decode r.word = .ok (.add q q) →
      exec (.add q q) s = .next t → operandA q s = operandB q s ∧ readReg q t = trunc8 (2 * uval (operandA q s))) ∧
    (∀ (i : Instr) (s t : State), i.mnemonic ≠ .add → exec i s = .next t → getFlag .C t.sreg = getFlag .C s.sreg) ∧
    (∀ r1 r2 : RegIdx, (encode (.add r1 r2)).toNat = 0 * 4096 + r1.toNat * 64 + r2.toNat)

/-- R101, SUB: the truncated difference in r1, V, N, S and Z, C kept, the latch, and nothing else; the equivalent forms;
with r1 = r2 the result 0x00 in a state of the invariant; and the encoding. -/
def Obligations.SubWritesDifferenceFlagsAndLatch : Prop :=
  (∀ (r1 r2 : RegIdx) (s : State),
    let a := operandA r1 s
    let b := operandB r2 s
    let res := trunc8 (sval a - sval b)
    ∃ t, exec (.sub r1 r2) s = .next t ∧ readReg r1 t = res ∧ SameRegsExcept r1 s t ∧
      getFlag .C t.sreg = getFlag .C s.sreg ∧
      getFlag .V t.sreg = decide (sval a - sval b < -128 ∨ sval a - sval b > 127) ∧
      getFlag .N t.sreg = res.getLsbD 7 ∧
      getFlag .S t.sreg = (getFlag .N t.sreg ^^ getFlag .V t.sreg) ∧
      getFlag .Z t.sreg = decide (res = 0x00) ∧
      reservedBits t.sreg = reservedBits s.sreg ∧
      t.lat = { valid := true, value := res, dest := some r1 } ∧
      SameData s t ∧ SameControl s t ∧ t.imem = s.imem) ∧
    (∀ a b : Byte,
      trunc8 (sval a - sval b) = trunc8 ((uval a : Int) - uval b) ∧
        (decide (sval a - sval b < -128 ∨ sval a - sval b > 127) = true ↔
          a.getLsbD 7 ≠ b.getLsbD 7 ∧ (trunc8 (sval a - sval b)).getLsbD 7 ≠ a.getLsbD 7)) ∧
    (∀ (q : RegIdx) (s t : State) (r : DeRecord), Inv s → s.de = some r → decode r.word = .ok (.sub q q) →
      exec (.sub q q) s = .next t →
      readReg q t = 0x00 ∧ getFlag .V t.sreg = false ∧ getFlag .N t.sreg = false ∧ getFlag .S t.sreg = false ∧
        getFlag .Z t.sreg = true) ∧
    (∀ r1 r2 : RegIdx, (encode (.sub r1 r2)).toNat = 1 * 4096 + r1.toNat * 64 + r2.toNat)

/-- R102, MUL: the low 8 bits of the product in r1, N, Z, and S from the new N and the kept V, C and V kept, the latch, and
nothing else; S kept under MUL_SIGN_MODE = keep; the unsigned product's low 8 bits are the same; with
r1 = r2 the square in a state of the invariant; and the encoding. -/
def Obligations.MulWritesProductFlagsAndLatch : Prop :=
  (∀ (r1 r2 : RegIdx) (s : State),
    let a := operandA r1 s
    let b := operandB r2 s
    let res := trunc8 (sval a * sval b)
    ∃ t, exec (.mul r1 r2) s = .next t ∧ readReg r1 t = res ∧ SameRegsExcept r1 s t ∧
      getFlag .C t.sreg = getFlag .C s.sreg ∧
      getFlag .V t.sreg = getFlag .V s.sreg ∧
      getFlag .N t.sreg = res.getLsbD 7 ∧
      getFlag .S t.sreg = (getFlag .N t.sreg ^^ getFlag .V s.sreg) ∧
      getFlag .Z t.sreg = decide (res = 0x00) ∧
      reservedBits t.sreg = reservedBits s.sreg ∧
      t.lat = { valid := true, value := res, dest := some r1 } ∧
      SameData s t ∧ SameControl s t ∧ t.imem = s.imem) ∧
    (∀ res sreg : Byte, ∀ f : Flag,
      getFlag f (mulFlags .keep res sreg) =
        match f with
        | .N => res.getLsbD 7
        | .Z => decide (res = 0x00)
        | .C => getFlag .C sreg
        | .V => getFlag .V sreg
        | .S => getFlag .S sreg) ∧
    (∀ a b : Byte, trunc8 (sval a * sval b) = trunc8 (uval a * uval b) ∧
      -16256 ≤ sval a * sval b ∧ sval a * sval b ≤ 16384) ∧
    (∀ (q : RegIdx) (s t : State) (r : DeRecord), Inv s → s.de = some r → decode r.word = .ok (.mul q q) →
      exec (.mul q q) s = .next t → readReg q t = trunc8 (sval (operandA q s) * sval (operandA q s))) ∧
    (∀ r1 r2 : RegIdx, (encode (.mul r1 r2)).toNat = 2 * 4096 + r1.toNat * 64 + r2.toNat)

/-- R103, EOR: the exclusive or in r1, N and Z, the other flags kept, the latch, and nothing else; equal operands, and in a
state of the invariant r1 = r2, give 0x00 and set Z; and the encoding. -/
def Obligations.EorWritesExclusiveOrFlagsAndLatch : Prop :=
  (∀ (r1 r2 : RegIdx) (s : State),
    let res := operandA r1 s ^^^ operandB r2 s
    ∃ t, exec (.eor r1 r2) s = .next t ∧ readReg r1 t = res ∧ SameRegsExcept r1 s t ∧
      getFlag .N t.sreg = res.getLsbD 7 ∧
      getFlag .Z t.sreg = decide (res = 0x00) ∧
      SameFlagsExcept [.N, .Z] s t ∧
      t.lat = { valid := true, value := res, dest := some r1 } ∧
      SameData s t ∧ SameControl s t ∧ t.imem = s.imem ∧
      (operandA r1 s = operandB r2 s → readReg r1 t = 0x00 ∧ getFlag .Z t.sreg = true)) ∧
    (∀ (q : RegIdx) (s t : State) (r : DeRecord), Inv s → s.de = some r → decode r.word = .ok (.eor q q) →
      exec (.eor q q) s = .next t → readReg q t = 0x00 ∧ getFlag .Z t.sreg = true) ∧
    (∀ r1 r2 : RegIdx, (encode (.eor r1 r2)).toNat = 6 * 4096 + r1.toNat * 64 + r2.toNat)

/-- R104, MOVI: the immediate in r1, no flag, the latch, and nothing else; the immediate is the sign extension of the word's
low six bits; and the encoding. -/
def Obligations.MoviWritesImmediateAndLatch : Prop :=
  (∀ (r1 : RegIdx) (imm : Byte) (s : State),
    ∃ t, exec (.movi r1 imm) s = .next t ∧ readReg r1 t = imm ∧ SameRegsExcept r1 s t ∧ t.sreg = s.sreg ∧
      t.lat = { valid := true, value := imm, dest := some r1 } ∧
      SameData s t ∧ SameControl s t ∧ t.imem = s.imem) ∧
    (∀ (r1 : RegIdx) (f : BitVec 6),
      decode (BitVec.ofNat 16 (3 * 4096 + r1.toNat * 64 + f.toNat)) = .ok (.movi r1 (f.signExtend 8)))

/-- R105, ANDI: the and with the sign-extended mask in r1, N and Z, the other flags kept, the latch, and nothing else; a mask
that keeps bit 7 keeps bit 6; and the encoding. -/
def Obligations.AndiWritesAndFlagsAndLatch : Prop :=
  (∀ (r1 : RegIdx) (imm : Byte) (s : State),
    let res := operandA r1 s &&& imm
    ∃ t, exec (.andi r1 imm) s = .next t ∧ readReg r1 t = res ∧ SameRegsExcept r1 s t ∧
      getFlag .N t.sreg = res.getLsbD 7 ∧
      getFlag .Z t.sreg = decide (res = 0x00) ∧
      SameFlagsExcept [.N, .Z] s t ∧
      t.lat = { valid := true, value := res, dest := some r1 } ∧
      SameData s t ∧ SameControl s t ∧ t.imem = s.imem) ∧
    (∀ (r1 : RegIdx) (f : BitVec 6),
      decode (BitVec.ofNat 16 (5 * 4096 + r1.toNat * 64 + f.toNat)) = .ok (.andi r1 (f.signExtend 8)) ∧
        (f.signExtend 8).getLsbD 7 = (f.signExtend 8).getLsbD 6)

/-- R106, SAL: the truncated left shift in r1, N and Z, the other flags kept, the latch, and nothing else; the result is the
logical left shift, and 0x00 for an amount of 8 or more; and the encoding, with the zero-extended amount. -/
def Obligations.SalWritesLeftShiftFlagsAndLatch : Prop :=
  (∀ (r1 : RegIdx) (imm : Byte) (s : State),
    let k := uval imm
    let res := trunc8 (sval (operandA r1 s) * 2 ^ k)
    ∃ t, exec (.sal r1 imm) s = .next t ∧ readReg r1 t = res ∧ SameRegsExcept r1 s t ∧
      getFlag .N t.sreg = res.getLsbD 7 ∧
      getFlag .Z t.sreg = decide (res = 0x00) ∧
      SameFlagsExcept [.N, .Z] s t ∧
      t.lat = { valid := true, value := res, dest := some r1 } ∧
      SameData s t ∧ SameControl s t ∧ t.imem = s.imem) ∧
    (∀ (a : Byte) (k : Nat), trunc8 (sval a * 2 ^ k) = trunc8 (uval a * 2 ^ k) ∧ trunc8 (sval a * 2 ^ k) = a <<< k ∧
      (8 ≤ k → trunc8 (sval a * 2 ^ k) = 0x00)) ∧
    (∀ (r1 : RegIdx) (f : BitVec 6),
      decode (BitVec.ofNat 16 (8 * 4096 + r1.toNat * 64 + f.toNat)) = .ok (.sal r1 (f.setWidth 8)) ∧
        uval (f.setWidth 8) = f.toNat)

/-- R107, SAR: the floor of the signed value over 2^k in r1, N and Z, the other flags kept, the latch, and nothing else; for an
amount of 7 or more the result is 0x00 or 0xFF by the sign; and the encoding, with the zero-extended amount. -/
def Obligations.SarWritesRightShiftFlagsAndLatch : Prop :=
  (∀ (r1 : RegIdx) (imm : Byte) (s : State),
    let k := uval imm
    let res := trunc8 ⌊(sval (operandA r1 s) : ℚ) / 2 ^ k⌋
    ∃ t, exec (.sar r1 imm) s = .next t ∧ readReg r1 t = res ∧ SameRegsExcept r1 s t ∧
      getFlag .N t.sreg = res.getLsbD 7 ∧
      getFlag .Z t.sreg = decide (res = 0x00) ∧
      SameFlagsExcept [.N, .Z] s t ∧
      t.lat = { valid := true, value := res, dest := some r1 } ∧
      SameData s t ∧ SameControl s t ∧ t.imem = s.imem) ∧
    (∀ (a : Byte) (k : Nat), shiftRight a k = a.sshiftRight k ∧ shiftRight a 0 = a ∧
      (7 ≤ k → shiftRight a k = if a.getLsbD 7 = true then 0xFF else 0x00)) ∧
    (∀ (r1 : RegIdx) (f : BitVec 6),
      decode (BitVec.ofNat 16 (9 * 4096 + r1.toNat * 64 + f.toNat)) = .ok (.sar r1 (f.setWidth 8)) ∧
        uval (f.setWidth 8) = f.toNat)

/-- R130, BEQZ: when the value Decode read is 0x00, the PC becomes pc1 + offset modulo 2^16, both slots are emptied and the
stall counters are 1 and 2; when it is not, nothing changes; in both cases no register, byte, flag or latch is written and no
error is raised. The value tested and pc1 are the record's, never the latch's; a fetch from a PC of 1024 or more takes
OutOfBounds; and the encoding. -/
def Obligations.BeqzBranchesWhenTheDecodedValueIsZero : Prop :=
  (∀ (r1 : RegIdx) (imm : Byte) (s : State),
    (decodedV1 r1 s = 0x00 →
      ∃ t, exec (.beqz r1 imm) s = .next t ∧
        (t.pc.toNat : Int) = ((recordPc1 s).toNat + sval imm) % 65536 ∧
        t.fd = none ∧ t.de = none ∧ t.dstall = 1 ∧ t.estall = 2 ∧
        SameRegs s t ∧ SameData s t ∧ t.sreg = s.sreg ∧ t.lat = s.lat ∧ t.stop = s.stop ∧ t.cycle = s.cycle ∧
        t.status = s.status ∧ t.imem = s.imem) ∧
      (decodedV1 r1 s ≠ 0x00 → exec (.beqz r1 imm) s = .next s)) ∧
    (∀ (r1 : RegIdx) (s : State) (r : DeRecord), s.de = some r → decodedV1 r1 s = r.v1 ∧ recordPc1 s = r.pc1) ∧
    (∀ s : State, s.status = .running → s.stop.val < 3 → 1024 ≤ s.pc.toNat →
      step s = .next { s with status := .faulted (.outOfBounds .fetch s.pc.toNat) }) ∧
    (∀ (r1 : RegIdx) (f : BitVec 6),
      decode (BitVec.ofNat 16 (4 * 4096 + r1.toNat * 64 + f.toNat)) = .ok (.beqz r1 (f.signExtend 8)))

/-- R131, BR: the PC becomes the decode-time r1 value * 256 + the decode-time r2 value, both slots are emptied and the stall
counters are 1 and 2; no register, byte, flag or latch is written and no error is raised; a high byte of 4 or more gives a
target of 1024 or more, from which a fetch takes OutOfBounds; with r1 = r2, in a state of the invariant, the target is 257
times the value; and the encoding. -/
def Obligations.BrBranchesToTheDecodedRegisterPair : Prop :=
  (∀ (r1 r2 : RegIdx) (s : State),
    ∃ t, exec (.br r1 r2) s = .next t ∧
      t.pc.toNat = uval (decodedV1 r1 s) * 256 + uval (decodedV2 r2 s) ∧
      t.fd = none ∧ t.de = none ∧ t.dstall = 1 ∧ t.estall = 2 ∧
      SameRegs s t ∧ SameData s t ∧ t.sreg = s.sreg ∧ t.lat = s.lat ∧ t.stop = s.stop ∧ t.cycle = s.cycle ∧
      t.status = s.status ∧ t.imem = s.imem) ∧
    (∀ (r1 r2 : RegIdx) (s : State) (r : DeRecord), s.de = some r → decodedV1 r1 s = r.v1 ∧ decodedV2 r2 s = r.v2) ∧
    (∀ (r1 r2 : RegIdx) (s t : State), exec (.br r1 r2) s = .next t → (1024 ≤ t.pc.toNat ↔ 4 ≤ uval (decodedV1 r1 s))) ∧
    (∀ s : State, s.status = .running → s.stop.val < 3 → 1024 ≤ s.pc.toNat →
      step s = .next { s with status := .faulted (.outOfBounds .fetch s.pc.toNat) }) ∧
    (∀ (q : RegIdx) (s t : State) (r : DeRecord), Inv s → s.de = some r → decode r.word = .ok (.br q q) →
      exec (.br q q) s = .next t → t.pc.toNat = uval (decodedV1 q s) * 257) ∧
    (∀ r1 r2 : RegIdx, (encode (.br r1 r2)).toNat = 7 * 4096 + r1.toNat * 64 + r2.toNat)

/-- R140, LDR: the data cell at the unsigned immediate in r1, no flag, the latch, and nothing else. In a state of the
invariant a LDR whose record carries the memory hazard flag reads the latch's value; and a LDR's successor in the pipeline that
is no branch and reads the loaded register gets the loaded byte by forwarding, with no stall. And the encoding, with the
zero-extended address. -/
def Obligations.LdrLoadsTheDataCell : Prop :=
  (∀ (r1 : RegIdx) (imm : Byte) (s : State),
    ∃ t, exec (.ldr r1 imm) s = .next t ∧ readReg r1 t = readByte s (uval imm) ∧ SameRegsExcept r1 s t ∧
      t.sreg = s.sreg ∧
      t.lat = { valid := true, value := readByte s (uval imm), dest := some r1 } ∧
      SameData s t ∧ SameControl s t ∧ t.imem = s.imem) ∧
    (∀ (r1 : RegIdx) (imm : Byte) (s : State) (r : DeRecord), Inv s → s.de = some r → decode r.word = .ok (.ldr r1 imm) →
      r.memstall = true → readByte s (uval imm) = s.lat.value) ∧
    (∀ (s t : State) (e : DeRecord) (f : FdRecord) (a : RegIdx) (imm : Byte) (i : Instr), Inv s → s.status = .running →
      s.de = some e → decode e.word = .ok (.ldr a imm) → s.fd = some f → decode f.word = .ok i →
      isBranch i.mnemonic = false → step s = .next t → NotFaulted t →
      t.estall = 0 ∧ ∃ r, t.de = some r ∧ r.word = f.word ∧
        (readsR1 i.mnemonic = true → r1Field f.word = a → r.fwd1 = true ∧ operandA a t = readByte s (uval imm)) ∧
        (readsR2 i.mnemonic = true → lowField f.word = a → r.fwd2 = true ∧ operandB a t = readByte s (uval imm))) ∧
    (∀ (r1 : RegIdx) (f : BitVec 6),
      decode (BitVec.ofNat 16 (10 * 4096 + r1.toNat * 64 + f.toNat)) = .ok (.ldr r1 (f.setWidth 8)) ∧
        uval (f.setWidth 8) = f.toNat)

/-- R141, STR: operand a in the data cell at the unsigned immediate, every other byte kept, no register and no flag, the
latch with no destination, and nothing else; in a state of the invariant operand a is the register's current value; and the
encoding, with the zero-extended address. -/
def Obligations.StrStoresOneByte : Prop :=
  (∀ (r1 : RegIdx) (imm : Byte) (s : State),
    ∃ t, exec (.str r1 imm) s = .next t ∧ readByte t (effectiveAddress imm) = operandA r1 s ∧
      SameDataExcept (effectiveAddress imm) s t ∧ SameRegs s t ∧ t.sreg = s.sreg ∧
      t.lat = { valid := true, value := operandA r1 s, dest := none } ∧
      SameControl s t ∧ t.imem = s.imem) ∧
    (∀ (r1 : RegIdx) (imm : Byte) (s : State) (r : DeRecord), Inv s → s.de = some r → decode r.word = .ok (.str r1 imm) →
      operandA r1 s = readReg r1 s) ∧
    (∀ (r1 : RegIdx) (f : BitVec 6),
      decode (BitVec.ofNat 16 (11 * 4096 + r1.toNat * 64 + f.toNat)) = .ok (.str r1 (f.setWidth 8)) ∧
        effectiveAddress (f.setWidth 8) = f.toNat)

/-- R175: operand a is the latch value when fwd1 is set and the decode-time r1 value when it is not, b likewise with fwd2 and
r2; and in a state of the invariant a branch's record has both flags clear. -/
def Obligations.OperandsAreForwardedFromTheLatch : Prop :=
  (∀ (q : RegIdx) (s : State) (r : DeRecord), s.de = some r →
    operandA q s = (if r.fwd1 = true then s.lat.value else r.v1) ∧
      operandB q s = (if r.fwd2 = true then s.lat.value else r.v2)) ∧
    (∀ (s : State) (r : DeRecord) (i : Instr), Inv s → s.de = some r → decode r.word = .ok i → isBranch i.mnemonic = true →
      r.fwd1 = false ∧ r.fwd2 = false ∧ (∀ q, operandA q s = r.v1) ∧ ∀ q, operandB q s = r.v2)

/-! ### The cycle -/

/-- The step of a running core runs the instruction in the D→E slot: when the slot's word decodes to `i`, Execute is not
stalled, Fetch does not fault and Decode can enqueue, `exec i` answers some `e` and the step is the commit of that `e`: the PC,
the slots and the stall counters of `e` where `i` branched, and else those of Fetch and Decode; the stop counter is Fetch's, one
more cycle is counted, and all else is `e`'s (from R160 and R185). -/
def Obligations.StepRunsTheInstructionInTheDecodeToExecuteSlot : Prop :=
  ∀ (s : State) (r : DeRecord) (i : Instr) (f : FetchResult),
    s.status = .running → s.estall = 0 → s.de = some r → decode r.word = .ok i → fetchStage s = .ok f →
    (f.record = none ∨ s.fd = none ∨ s.dstall = 0) →
    WellFormed i = true ∧ ∃ e, exec i s = .next e ∧
      step s = .next
        (if (branchTargetOf i s).isSome then
          { e with stop := f.stop, cycle := s.cycle + 1, status := if 3 ≤ f.stop.val then .halted else .running }
        else
          { e with
            pc := f.pc
            fd := if f.record.isSome then f.record else if s.dstall = 0 then none else s.fd
            de := decodeStage s
            dstall := 0
            stop := f.stop
            cycle := s.cycle + 1
            status := if 3 ≤ f.stop.val ∧ decodeStage s = none then .halted else .running })

/-- Executing a word placed by `withFetchWord` is the next step's work: the instruction completes and its writes to registers,
data memory, SREG and the latch are the step's (the placement is the model's, assumption 9; from R240). -/
def Obligations.NextStepExecutesAPlacedWord : Prop :=
  ∀ (s : State) (w : Nat) (i : Instr), decodeTableWord 16 w = some i →
    ∃ e t, exec i (s.withFetchWord 16 w) = .next e ∧ step (s.withFetchWord 16 w) = .next t ∧
      t.x = e.x ∧ t.dmem = e.dmem ∧ t.sreg = e.sreg ∧ t.lat = e.lat ∧ NotFaulted t ∧
      executing (s.withFetchWord 16 w) = some i

/-- R152: what Fetch does in a running core's cycle: nothing when blocked; OutOfBounds at a PC of 1024 or more; a count and
no enqueue at the sentinel; else a record with the next PC, and the stop counter reset. And what a cycle without a fatal error
makes of it: a taken branch overrides the PC and discards the record. -/
def Obligations.FetchReadsTheWordAtThePc : Prop :=
  (∀ s : State,
    (3 ≤ s.stop.val → fetchStage s = .ok { record := none, pc := s.pc, stop := s.stop }) ∧
      (s.stop.val < 3 → 1024 ≤ s.pc.toNat → fetchStage s = .error (.outOfBounds .fetch s.pc.toNat)) ∧
      (s.stop.val < 3 → s.pc.toNat < 1024 → wordAtPc s = 0xFFFF →
        ∃ n, fetchStage s = .ok { record := none, pc := s.pc, stop := n } ∧ n.val = s.stop.val + 1) ∧
      (s.stop.val < 3 → s.pc.toNat < 1024 → wordAtPc s ≠ 0xFFFF →
        ∃ p : Word, p.toNat = (s.pc.toNat + 1) % 65536 ∧
          fetchStage s = .ok { record := some { word := wordAtPc s, pc1 := p }, pc := p, stop := 0 })) ∧
    ∀ s t : State, s.status = .running → step s = .next t → NotFaulted t →
      (s.stop.val < 3 → s.pc.toNat < 1024) ∧
        (3 ≤ s.stop.val → t.stop = s.stop ∧ (takenTarget s = none → t.pc = s.pc)) ∧
        (s.stop.val < 3 → wordAtPc s = 0xFFFF → t.stop.val = s.stop.val + 1 ∧ (takenTarget s = none → t.pc = s.pc)) ∧
        (s.stop.val < 3 → wordAtPc s ≠ 0xFFFF → t.stop = 0 ∧
          (takenTarget s = none → t.pc = s.pc + 1 ∧ t.fd = some { word := wordAtPc s, pc1 := s.pc + 1 })) ∧
        ∀ target, takenTarget s = some target → t.pc = target ∧ t.fd = none

/-- R163, R164, R165, R166 and R167: what a cycle without a fatal error commits to the PC, the slots and the counters, with
Fetch's part `f` and the taken branch's target, if there is one. -/
def Obligations.CommitSetsPcSlotsAndCounters : Prop :=
  ∀ (s t : State) (f : FetchResult), s.status = .running → fetchStage s = .ok f → step s = .next t → NotFaulted t →
    (∀ target, takenTarget s = some target →
      t.pc = target ∧ t.fd = none ∧ t.de = none ∧ t.dstall = 1 ∧ t.estall = 2) ∧
      (takenTarget s = none →
        t.pc = (if f.record.isSome then s.pc + 1 else s.pc) ∧
          t.fd = (if f.record.isSome then f.record else if s.dstall = 0 then none else s.fd) ∧
          t.de = (if (decodeStage s).isSome then decodeStage s else if s.estall = 0 then none else s.de) ∧
          t.dstall.val = s.dstall.val - 1 ∧ t.estall.val = s.estall.val - 1) ∧
      t.stop = f.stop ∧ (3 ≤ s.stop.val → t.stop = s.stop) ∧ (s.stop.val < 3 → wordAtPc s ≠ 0xFFFF → t.stop = 0) ∧
      t.cycle = s.cycle + 1

/-- R180: at the commit of a cycle without a fatal error the core halts exactly when the stop counter has reached 3 and the
D→E slot is empty, and the halting cycle is counted. -/
def Obligations.CoreHaltsWhenTheSentinelHasPropagated : Prop :=
  ∀ s t : State, s.status = .running → step s = .next t → NotFaulted t →
    (t.status = .halted ↔ 3 ≤ t.stop.val ∧ t.de = none) ∧ (t.status ≠ .halted → t.status = .running) ∧
      t.cycle = s.cycle + 1

/-- A halted or faulted core takes no further cycle and its state does not change (from R42, R181 and R187). -/
def Obligations.StoppedCoreTakesNoCycle : Prop :=
  ∀ s : State, s.status ≠ .running → step s = .next s

/-- R158 and R159: in a cycle without a fatal error in which Execute is stalled or its slot is empty, it writes no
register, byte, flag or latch; stalled, its counter goes down by one and its slot keeps its record unless Decode enqueues. -/
def Obligations.StalledOrIdleExecuteWritesNothing : Prop :=
  ∀ s t : State, s.status = .running → step s = .next t → NotFaulted t →
    ((s.estall ≠ 0 ∨ s.de = none) → t.x = s.x ∧ t.dmem = s.dmem ∧ t.sreg = s.sreg ∧ t.lat = s.lat) ∧
      (s.estall ≠ 0 → t.estall.val + 1 = s.estall.val ∧ (decodeStage s = none → t.de = s.de)) ∧
      (s.estall = 0 → s.de = none → t.estall = 0)

/-- R162: what the Execute latch holds after a cycle without a fatal error: the result written to r1; the value a STR stored,
with no destination; and what it held before after a branch and when Execute was stalled or idle. -/
def Obligations.LatchHoldsTheMostRecentResult : Prop :=
  ∀ s t : State, s.status = .running → step s = .next t → NotFaulted t →
    (∀ (r : DeRecord) (i : Instr), s.de = some r → executing s = some i → writesR1 i.mnemonic = true →
      t.lat = { valid := true, value := readReg (r1Field r.word) t, dest := some (r1Field r.word) }) ∧
      (∀ (q : RegIdx) (imm : Byte), executing s = some (.str q imm) →
        t.lat = { valid := true, value := operandA q s, dest := none }) ∧
      (∀ i : Instr, executing s = some i → isBranch i.mnemonic = true → t.lat = s.lat) ∧
      (executing s = none → t.lat = s.lat)

/-- From R22: a cycle changes a register only by performing one of ADD, SUB, MUL, MOVI, ANDI, EOR, SAL, SAR and LDR, and then only
that instruction's r1, so at most one register. -/
def Obligations.OnlyTheExecutingProducerWritesItsRegister : Prop :=
  ∀ s t : State, step s = .next t →
    ∀ q, readReg q t ≠ readReg q s →
      ∃ (r : DeRecord) (i : Instr), s.status = .running ∧ s.de = some r ∧ s.estall = 0 ∧ decode r.word = .ok i ∧
        i.mnemonic ∈ [Mnemonic.add, .sub, .mul, .movi, .andi, .eor, .sal, .sar, .ldr] ∧ q = r1Field r.word

/-- R30: a cycle changes a flag only by performing an instruction that writes it: ADD all five; SUB V, N, S, Z; MUL N, S, Z;
EOR, ANDI, SAL and SAR N and Z; the others none. And every instruction can change each of its flags. -/
def Obligations.OnlyTheListedInstructionsWriteEachFlag : Prop :=
  let writes := fun (m : Mnemonic) (f : Flag) =>
    m = .add ∨ (m = .sub ∧ f ≠ .C) ∨ (m = .mul ∧ f ≠ .C ∧ f ≠ .V) ∨
      (m ∈ [Mnemonic.eor, .andi, .sal, .sar] ∧ (f = .N ∨ f = .Z))
  (∀ s t : State, step s = .next t →
    ∀ f, getFlag f t.sreg ≠ getFlag f s.sreg →
      ∃ i, s.status = .running ∧ executing s = some i ∧ writes i.mnemonic f) ∧
    (∀ (i : Instr) (f : Flag),
      writes i.mnemonic f ↔ ∃ s t, exec i s = .next t ∧ getFlag f t.sreg ≠ getFlag f s.sreg)

/-- R29: the flags stand at bits 0 to 4 of SREG, and bits 7:5 are 0 at reset and are written by no cycle. -/
def Obligations.SregHoldsFiveFlagsAndThreeZeros : Prop :=
  (∀ v : Byte, getFlag .C v = v.getLsbD 0 ∧ getFlag .V v = v.getLsbD 1 ∧ getFlag .N v = v.getLsbD 2 ∧
    getFlag .S v = v.getLsbD 3 ∧ getFlag .Z v = v.getLsbD 4) ∧
    reservedBits State.reset.sreg = 0 ∧
    (∀ s t : State, step s = .next t → reservedBits t.sreg = reservedBits s.sreg)

/-- R63: no cycle writes instruction memory, so what a fetch reads at an index never changes; a STR writes data memory and the
latch only. -/
def Obligations.InstructionMemoryNeverChanges : Prop :=
  (∀ s t : State, step s = .next t → t.imem = s.imem) ∧
    ∀ (r1 : RegIdx) (imm : Byte) (s t : State), exec (.str r1 imm) s = .next t →
      t = { s with dmem := t.dmem, lat := t.lat }

/-- R183: `run_complete` is 1 exactly in a cycle without a fatal error in which Execute dequeues a record and the D→E slot is
empty after the commit. -/
def Obligations.RunCompleteMarksAnEmptySlotAfterADequeue : Prop :=
  ∀ s t : State, s.status = .running → step s = .next t →
    (runComplete s t = true ↔ NotFaulted t ∧ s.estall = 0 ∧ s.de ≠ none ∧ t.de = none)

/-! ### The hazard unit and the decoder's record -/

/-- R174, with R169, R171, R172 and R173: the hazard unit changes only the four flags. A branch (opcode 4 or 7), and a record
with nothing executing, get none; else memstall, fwd1 and fwd2 are set exactly under rules 2, 3 and 4, and hazard is their
disjunction. -/
def Obligations.HazardUnitSetsTheFlagsOfItsFourRules : Prop :=
  (∀ (inc : DeRecord) (ex : Option DeRecord),
    let out := hazardUnit inc ex
    { out with hazard := inc.hazard, fwd1 := inc.fwd1, fwd2 := inc.fwd2, memstall := inc.memstall } = inc ∧
      out.hazard = (out.memstall || out.fwd1 || out.fwd2) ∧
      ((inc.op = 4 ∨ inc.op = 7 ∨ ex = none) → out.memstall = false ∧ out.fwd1 = false ∧ out.fwd2 = false)) ∧
    (∀ inc ex : DeRecord, inc.op ≠ 4 → inc.op ≠ 7 →
      ((hazardUnit inc (some ex)).memstall = true ↔ inc.op = 10 ∧ ex.op = 11 ∧ inc.imm = ex.imm) ∧
        ((hazardUnit inc (some ex)).fwd1 = true ↔
          ex.op ∈ [0, 1, 2, 6, 3, 5, 8, 9, (10 : Opcode)] ∧ inc.op ≠ 10 ∧ inc.op ≠ 3 ∧ inc.r1 = ex.r1) ∧
        ((hazardUnit inc (some ex)).fwd2 = true ↔
          ex.op ∈ [0, 1, 2, 6, 3, 5, 8, 9, (10 : Opcode)] ∧ inc.fmt = .r ∧ inc.r2 = some ex.r1))

/-- R81: the decoder's record for every word; and where the word is an instruction, the record's opcode, format, registers and
immediate are that instruction's. -/
def Obligations.DecoderBuildsTheRecordOfAWord : Prop :=
  ∀ (w pc1 : Word) (s : State),
    let r := decodeRecord w pc1 s
    r.word = w ∧ r.pc1 = pc1 ∧ r.op.toNat = w.toNat / 4096 ∧ r.r1.toNat = w.toNat / 64 % 64 ∧ r.v1 = readReg r.r1 s ∧
      r.hazard = false ∧ r.fwd1 = false ∧ r.fwd2 = false ∧ r.memstall = false ∧
      (r.fmt = .r ↔ r.op ∈ [0, 1, 2, 6, (7 : Opcode)]) ∧
      (r.fmt = .r → ∃ q : RegIdx, r.r2 = some q ∧ q.toNat = w.toNat % 64 ∧ r.imm = none ∧ r.v2 = readReg q s) ∧
      (r.fmt = .i → r.r2 = none ∧ r.v2 = 0x00 ∧ ∃ v : Byte, r.imm = some v ∧
        (r.op ∈ [3, 4, (5 : Opcode)] → v = (BitVec.ofNat 6 w.toNat).signExtend 8) ∧
        (r.op ∉ [3, 4, (5 : Opcode)] → v.toNat = w.toNat % 64)) ∧
      ∀ i, decode w = .ok i →
        r.op = opcodeMap i.mnemonic ∧
          match i with
          | .add a b | .sub a b | .mul a b | .eor a b | .br a b =>
            r.fmt = .r ∧ r.r1 = a ∧ r.r2 = some b ∧ r.imm = none
          | .movi a v | .beqz a v | .andi a v | .sal a v | .sar a v | .ldr a v | .str a v =>
            r.fmt = .i ∧ r.r1 = a ∧ r.r2 = none ∧ r.imm = some v

/-! ### Fatal errors -/

/-- R200: a running core whose Fetch is not blocked and whose PC is 1024 or more takes OutOfBounds, code 1, with the stage and
the PC; and a PC below 1024 becomes such a value in the three ways the rule lists. -/
def Obligations.FetchOutsideInstructionMemoryFaults : Prop :=
  (∀ s : State, s.status = .running → s.stop.val < 3 → 1024 ≤ s.pc.toNat →
    step s = .next { s with status := .faulted (.outOfBounds .fetch s.pc.toNat) } ∧
      RunStatus.code (.faulted (.outOfBounds .fetch s.pc.toNat)) = 1) ∧
    (∀ s t : State, step s = .next t → s.pc.toNat < 1024 → 1024 ≤ t.pc.toNat →
      (s.pc.toNat = 1023 ∧ t.pc.toNat = 1024 ∧ wordAtPc s ≠ 0xFFFF) ∨
        (∃ r1 imm, executing s = some (.beqz r1 imm) ∧ decodedV1 r1 s = 0x00 ∧
          (t.pc.toNat : Int) = ((recordPc1 s).toNat + sval imm) % 65536) ∨
        (∃ r1 r2, executing s = some (.br r1 r2) ∧
          t.pc.toNat = uval (decodedV1 r1 s) * 256 + uval (decodedV2 r2 s) ∧ 4 ≤ uval (decodedV1 r1 s)))

/-- R202: a running core whose Fetch does not fault takes UnknownOpcode, code 2, when Execute, not stalled, dispatches a record whose
opcode value is 12 to 15, with the opcode, the word and the word's index; and no cycle raises it in any other way, so Fetch and
Decode never do, and a reserved word flushed before Execute raises nothing. -/
def Obligations.ReservedOpcodeFaultsAtExecute : Prop :=
  (∀ (s : State) (r : DeRecord), s.status = .running → (s.stop.val < 3 → s.pc.toNat < 1024) → s.de = some r →
    r.op = opField r.word → s.estall = 0 → 12 ≤ r.op.toNat →
      step s = .next { s with status := .faulted (.unknownOpcode r.op r.word (r.pc1 - 1)) } ∧
        RunStatus.code (.faulted (.unknownOpcode r.op r.word (r.pc1 - 1))) = 2) ∧
    (∀ (s t : State) (op : Opcode) (w n : Word), s.status = .running → step s = .next t →
      t.status = .faulted (.unknownOpcode op w n) →
      ∃ r, s.de = some r ∧ s.estall = 0 ∧ 12 ≤ (opField r.word).toNat ∧ op = r.op ∧ w = r.word ∧
        n.toNat = (r.pc1.toNat + 65535) % 65536)

/-- R205: of the fatal errors of one cycle the first in the order Fetch, Execute, F→D queue, D→E queue is taken, whatever else
arises in the cycle; with none of them the cycle completes. -/
def Obligations.FatalErrorsAreTakenInStageOrder : Prop :=
  ∀ s : State, s.status = .running →
    let fetchFaults := s.stop.val < 3 ∧ 1024 ≤ s.pc.toNat
    let unknown := fun r : DeRecord => s.estall = 0 ∧ s.de = some r ∧ 12 ≤ (opField r.word).toNat
    let fdFull := s.stop.val < 3 ∧ wordAtPc s ≠ 0xFFFF ∧ s.fd ≠ none ∧ s.dstall ≠ 0
    let deFull := s.dstall = 0 ∧ s.fd ≠ none ∧ s.de ≠ none ∧ s.estall ≠ 0
    (fetchFaults → step s = .next { s with status := .faulted (.outOfBounds .fetch s.pc.toNat) }) ∧
      (∀ r, ¬fetchFaults → unknown r →
        step s = .next { s with status := .faulted (.unknownOpcode r.op r.word (r.pc1 - 1)) }) ∧
      (¬fetchFaults → (∀ r, ¬unknown r) → fdFull →
        step s = .next { s with status := .faulted (.queueOverflow .fetchToDecode) }) ∧
      (¬fetchFaults → (∀ r, ¬unknown r) → ¬fdFull → deFull →
        step s = .next { s with status := .faulted (.queueOverflow .decodeToExecute) }) ∧
      (¬fetchFaults → (∀ r, ¬unknown r) → ¬fdFull → ¬deFull → ∃ t, step s = .next t ∧ NotFaulted t)

/-- R204: the cycle that takes a fatal error commits nothing: every field but the status keeps its value; and no further cycle
is taken. -/
def Obligations.FatalErrorCommitsNothing : Prop :=
  ∀ (s t : State) (e : FatalError), s.status = .running → step s = .next t → t.status = .faulted e →
    t = { s with status := .faulted e } ∧ step t = .next t

/-- From R201: no instruction can raise an OutOfBounds on a register or on data memory: none changes the status, and a fault of a
running core's cycle is never one; a host that calls a storage operation with a bad index gets it. -/
def Obligations.NoInstructionRaisesOutOfBounds : Prop :=
  (∀ (i : Instr) (s : State), ∃ t, exec i s = .next t ∧ t.status = s.status) ∧
    (∀ (s t : State) (n : Nat), s.status = .running → step s = .next t →
      t.status ≠ .faulted (.outOfBounds .register n) ∧ t.status ≠ .faulted (.outOfBounds .data n)) ∧
    (∀ (s : State) (n : Nat) (v : Byte),
      (64 ≤ n → readRegister n s = .error (.outOfBounds .register n) ∧
        writeRegister n v s = .error (.outOfBounds .register n)) ∧
        (2048 ≤ n → readData n s = .error (.outOfBounds .data n) ∧ writeData n v s = .error (.outOfBounds .data n)))

/-- From R52: the five storage operations, for every index: inside its bound each reads or writes the one cell, at or above it
each fails. In a run only `read_instruction` can fail. -/
def Obligations.StorageOperationsFailExactlyOutsideTheirBound : Prop :=
  ∀ (s : State) (n : Nat) (v : Byte),
    (∀ q : RegIdx, q.toNat = n → readRegister n s = .ok (readReg q s) ∧
      ∃ t, writeRegister n v s = .ok t ∧ readReg q t = v ∧ SameRegsExcept q s t ∧ t = { s with x := t.x }) ∧
      (64 ≤ n → readRegister n s = .error (.outOfBounds .register n) ∧
        writeRegister n v s = .error (.outOfBounds .register n)) ∧
      (n < 2048 → readData n s = .ok (readByte s n) ∧
        ∃ t, writeData n v s = .ok t ∧ readByte t n = v ∧ SameDataExcept n s t ∧ t = { s with dmem := t.dmem }) ∧
      (2048 ≤ n → readData n s = .error (.outOfBounds .data n) ∧ writeData n v s = .error (.outOfBounds .data n)) ∧
      (n < 1024 → readInstruction n s = .ok (Imem.read s.imem n)) ∧
      (1024 ≤ n → readInstruction n s = .error (.outOfBounds .fetch n)) ∧
      (∀ (t : State) (space : Space), s.status = .running → step s = .next t →
        t.status = .faulted (.outOfBounds space n) → space = .fetch)

/-- The cause codes of the statuses (from R206, whose numbers are the spec's own). -/
def Obligations.CauseCodesAreZeroToThree : Prop :=
  RunStatus.code .running = 0 ∧ RunStatus.code .halted = 0 ∧
    ∀ (sp : Space) (n : Nat) (op : Opcode) (w k : Word) (q : Queue),
      RunStatus.code (.faulted (.outOfBounds sp n)) = 1 ∧ RunStatus.code (.faulted (.unknownOpcode op w k)) = 2 ∧
        RunStatus.code (.faulted (.queueOverflow q)) = 3

/-! ### Reset and loading -/

/-- R24, R28 and R32, and every other field of R220's table: the reset state, with the parameters INIT_REGS, INIT_DMEM and the
image as arguments, and at their defaults, which are the spec's (assumption 4). -/
def Obligations.ResetGivesEveryFieldItsValue : Prop :=
  (∀ (regs : Vector Byte 64) (dmem : List Host.Cell) (imem : List (Nat × Word)),
    State.resetWith regs dmem imem =
      { x := regs, pc := 0, sreg := 0x00, fd := none, de := none,
        lat := { valid := false, value := 0x00, dest := none },
        dstall := 0, estall := 0, stop := 0, cycle := 0, status := .running, imem := imem, dmem := dmem }) ∧
    (∀ q, readReg q State.reset = 0x00) ∧ (∀ a, readByte State.reset a = 0x00) ∧
    (∀ a, Imem.read State.reset.imem a = 0xFFFF) ∧
    ∃ regs dmem imem, State.reset = State.resetWith regs dmem imem

/-- From R226: the image of a program of at most 1024 words holds its words at indices 0 to n-1, whatever they are, and the
sentinel at every other index; that a longer one has no image is the model's choice (assumption 10). -/
def Obligations.LoaderFillsUnusedSlotsWithTheSentinel : Prop :=
  ∀ p : List Word,
    (p.length ≤ 1024 → ∃ m, loadImage p = some m ∧ Imem.wf m ∧
      (∀ (k : Nat) (h : k < p.length), Imem.read m k = p[k]) ∧ ∀ k, p.length ≤ k → Imem.read m k = 0xFFFF) ∧
      (1024 < p.length → loadImage p = none)

/-! ### Invariants and whole-machine rules -/

/-- The invariant holds at reset (from R182 and R220). -/
def Obligations.InvariantHoldsAtReset : Prop := Inv State.reset

/-- The invariant holds in the state a run of any program starts from, with any register file and any data memory (from R182,
R225 and R226). -/
def Obligations.InvariantHoldsForEveryLoadedProgram : Prop :=
  ∀ (p : List Word) (regs : Vector Byte 64) (cells : List Host.Cell) (s : State),
    State.boot p regs cells = some s → Inv s

/-- Every step keeps the invariant of R182: the canonical memories, the reserved SREG bits, the flush FSM with its empty slots,
the latch behind every forward flag, current operands, and what halting and running say of the slots and the stop counter
(from R182). -/
def Obligations.StepKeepsTheInvariant : Prop :=
  ∀ s t : State, Inv s → step s = .next t → Inv t

/-- In a state of the invariant a step never raises QueueOverflow (from R182, item 3, and R203). -/
def Obligations.QueuesNeverOverflow : Prop :=
  ∀ (s t : State) (q : Queue), Inv s → s.status = .running → step s = .next t → t.status ≠ .faulted (.queueOverflow q)

/-- In a state of the invariant an instruction that is no branch (BEQZ and BR are left out, as R231 leaves them out) does what
it does when it reads the register file in its Execute cycle: executing it with the record in the slot and with the slot emptied, which reads the operands from the register
file, gives the same state but for the slot (from R182, item 5, and R231; the empty slot's operands are the model's, assumption
7). -/
def Obligations.ForwardingMakesOperandsCurrent : Prop :=
  ∀ (s : State) (r : DeRecord) (i : Instr), Inv s → s.de = some r → decode r.word = .ok i → isBranch i.mnemonic = false →
    ∃ t u, exec i s = .next t ∧ exec i { s with de := none } = .next u ∧ t = { u with de := some r }

/-- From R168: the branch flush FSM of a running core in a state of the invariant. RUN goes to FLUSH1 when Execute takes a branch and
else stays; FLUSH1 goes to FLUSH2 and FLUSH2 to RUN; Decode is skipped in FLUSH1 only and Execute in both flush states. -/
def Obligations.FlushFsmTakesThreeStates : Prop :=
  ∀ s t : State, Inv s → s.status = .running → step s = .next t → NotFaulted t →
    ((s.dstall = 0 ∧ s.estall = 0) ∨ (s.dstall = 1 ∧ s.estall = 2) ∨ (s.dstall = 0 ∧ s.estall = 1)) ∧
      (s.dstall = 0 → s.estall = 0 → (takenTarget s).isSome → t.dstall = 1 ∧ t.estall = 2) ∧
      (s.dstall = 0 → s.estall = 0 → takenTarget s = none → t.dstall = 0 ∧ t.estall = 0) ∧
      (s.dstall = 1 → s.estall = 2 → t.dstall = 0 ∧ t.estall = 1 ∧ decodeStage s = none ∧ executing s = none) ∧
      (s.dstall = 0 → s.estall = 1 → t.dstall = 0 ∧ t.estall = 0 ∧ executing s = none ∧
        ∀ r, s.fd = some r → ∃ d, t.de = some d ∧ d.word = r.word) ∧
      (s.dstall = 0 → s.estall = 0 → takenTarget s = none → ∀ r, s.fd = some r → ∃ d, t.de = some d ∧ d.word = r.word)

/-- A word fetched in one cycle is decoded in the next and executed in the one after, unless it is flushed: with no branch taken
and no fatal error in two cycles of a running core whose Fetch is not blocked, the word at the PC that is not the sentinel is in
the F→D slot after the first and in the D→E slot after the second, with its address + 1, and Execute is not stalled there (from
R150 and R240). -/
def Obligations.FetchedWordReachesExecuteInTwoCycles : Prop :=
  ∀ s t u : State, s.status = .running → s.stop.val < 3 → wordAtPc s ≠ 0xFFFF → step s = .next t → t.status = .running →
    takenTarget s = none → step t = .next u → NotFaulted u → takenTarget t = none →
    t.fd = some { word := wordAtPc s, pc1 := s.pc + 1 } ∧
      u.estall = 0 ∧ ∃ r, u.de = some r ∧ r.word = wordAtPc s ∧ r.pc1 = s.pc + 1

/-- A branch decoded while the instruction before it executes reads its registers as they were before that instruction's write,
and nothing is forwarded to it (from R150, R169 and R230). -/
def Obligations.BranchReadsRegistersBeforeItsPredecessorsWrite : Prop :=
  ∀ (s t : State) (f : FdRecord) (i : Instr), s.status = .running → s.dstall = 0 → s.fd = some f → decode f.word = .ok i →
    isBranch i.mnemonic = true → step s = .next t → NotFaulted t → takenTarget s = none →
    ∃ r, t.de = some r ∧ r.word = f.word ∧ r.fwd1 = false ∧ r.fwd2 = false ∧
      (∀ q, decodedV1 q t = readReg (r1Field f.word) s) ∧
      (∀ a b q, i = .br a b → decodedV2 q t = readReg b s)

/-- A LDR right behind a STR to the same address reads the stored value: from a state with the STR in the D→E slot and the LDR
in the F→D slot, two cycles without a fatal error leave STR's operand in LDR's register (from R60, R140 and R171). -/
def Obligations.LoadRightAfterStoreReadsTheStoredByte : Prop :=
  ∀ (s t u : State) (e : DeRecord) (f : FdRecord) (a b : RegIdx) (imm : Byte),
    s.status = .running → s.dstall = 0 → s.estall = 0 →
    s.de = some e → decode e.word = .ok (.str a imm) → s.fd = some f → decode f.word = .ok (.ldr b imm) →
    step s = .next t → t.status = .running → step t = .next u → NotFaulted u →
    readReg b u = operandA a s ∧ readByte u (effectiveAddress imm) = operandA a s

/-- From R31: no instruction reads SREG: changing it changes nothing else of what a step does. -/
def Obligations.NoStepReadsTheStatusRegister : Prop :=
  ∀ (s t : State) (v : Byte), step s = .next t → ∃ v', step { s with sreg := v } = .next { t with sreg := v' }

/-- No instruction reads the cycle counter: changing it changes nothing else of what a step does (from R41 and R212). -/
def Obligations.NoStepReadsTheCycleCounter : Prop :=
  ∀ (s t : State) (n : Nat), step s = .next t → ∃ n', step { s with cycle := n } = .next { t with cycle := n' }

/-- From R51: the instructions reach only data addresses 0 to 63: no step changes a cell at 64 or above, and changing such cells
changes nothing else of what a step does. -/
def Obligations.InstructionsReachOnlyDataAddressesBelow64 : Prop :=
  ∀ s t : State, step s = .next t →
    (∀ a, 64 ≤ a → readByte t a = readByte s a) ∧
      ∀ m : List Host.Cell, (∀ a, a < 64 → Memory.read m a = readByte s a) →
        ∃ m', step { s with dmem := m } = .next { t with dmem := m' } ∧ ∀ a, a < 64 → Memory.read m' a = readByte t a
end

