-- ==== Sys2Proof/Laws/Cells.lean ====
section
/-! SUPPORT. The laws of cell lists: read after write, and the canonical form every write keeps. -/

namespace Sys2Proof.Machine

variable {w : Nat} {dflt : BitVec w} {bound : Nat}

@[simp] theorem Cells.read_nil (a : Nat) : Cells.read dflt [] a = dflt := rfl

@[simp] theorem Cells.read_cons (b : Nat) (v : BitVec w) (m : List (Nat × BitVec w)) (a : Nat) :
    Cells.read dflt ((b, v) :: m) a = if b = a then v else Cells.read dflt m a := rfl

theorem Cells.read_erase (m : List (Nat × BitVec w)) (a b : Nat) :
    Cells.read dflt (Cells.erase m a) b = if b = a then dflt else Cells.read dflt m b := by
  induction m with
  | nil => simp [Cells.erase]
  | cons c m ih =>
    obtain ⟨k, u⟩ := c
    simp only [Cells.erase] at ih
    by_cases hk : k = a
    · subst hk
      simp only [Cells.erase, List.filter_cons, bne_self_eq_false, Bool.false_eq_true, if_false, ih, Cells.read_cons]
      by_cases hb : b = k
      · simp [hb]
      · simp [hb, Ne.symm hb]
    · simp only [Cells.erase, List.filter_cons, bne_iff_ne, ne_eq, hk, not_false_eq_true, if_true, Cells.read_cons, ih]
      by_cases hb : b = a
      · simp [hb, hk]
      · simp [hb]

theorem Cells.read_insert (m : List (Nat × BitVec w)) (a b : Nat) (v : BitVec w)
    (h : ∀ c ∈ m, c.1 ≠ a) :
    Cells.read dflt (Cells.insert a v m) b = if b = a then v else Cells.read dflt m b := by
  induction m with
  | nil => simp [Cells.insert, eq_comm]
  | cons c m ih =>
    obtain ⟨k, u⟩ := c
    have hk : k ≠ a := h (k, u) (by simp)
    have ih := ih (fun d hd => h d (by simp [hd]))
    simp only [Cells.insert]
    split
    · by_cases hb : b = a
      · simp [hb]
      · simp [hb, Ne.symm hb]
    · simp only [Cells.read_cons, ih]
      by_cases hb : b = a
      · simp [hb, hk]
      · simp [hb]

theorem Cells.mem_erase {m : List (Nat × BitVec w)} {a : Nat} {c : Nat × BitVec w} :
    c ∈ Cells.erase m a ↔ c ∈ m ∧ c.1 ≠ a := by
  simp [Cells.erase, List.mem_filter]

/-- Everything a write does to what the cells read as. -/
theorem Cells.read_write (m : List (Nat × BitVec w)) (a b : Nat) (v : BitVec w) :
    Cells.read dflt (Cells.write dflt m a v) b = if b = a then v else Cells.read dflt m b := by
  unfold Cells.write
  split
  · next h => rw [Cells.read_erase]; split <;> simp_all
  · rw [Cells.read_insert _ _ _ _ (fun c hc => (Cells.mem_erase.mp hc).2), Cells.read_erase]
    split <;> simp_all

theorem Cells.mem_insert {m : List (Nat × BitVec w)} {a : Nat} {v : BitVec w} {c : Nat × BitVec w} :
    c ∈ Cells.insert a v m ↔ c = (a, v) ∨ c ∈ m := by
  induction m with
  | nil => simp [Cells.insert]
  | cons d m ih =>
    obtain ⟨k, u⟩ := d
    simp only [Cells.insert]
    split
    · simp
    · simp only [List.mem_cons, ih]
      tauto

theorem Cells.wf_nil : Cells.wf dflt bound [] := by simp [Cells.wf]

theorem Cells.wf_erase {m : List (Nat × BitVec w)} (a : Nat) (h : Cells.wf dflt bound m) :
    Cells.wf dflt bound (Cells.erase m a) :=
  ⟨h.1.filter _, fun c hc => h.2 c (Cells.mem_erase.mp hc).1⟩

theorem Cells.pairwise_insert {m : List (Nat × BitVec w)} {a : Nat} (v : BitVec w)
    (h : m.Pairwise (fun c d => c.1 < d.1)) (ha : ∀ c ∈ m, c.1 ≠ a) :
    (Cells.insert a v m).Pairwise (fun c d => c.1 < d.1) := by
  induction m with
  | nil => simp [Cells.insert]
  | cons d m ih =>
    obtain ⟨k, u⟩ := d
    obtain ⟨hd, hm⟩ := List.pairwise_cons.mp h
    have hk : k ≠ a := ha (k, u) (by simp)
    simp only [Cells.insert]
    split
    · next hlt =>
      refine List.pairwise_cons.mpr ⟨fun c hc => ?_, h⟩
      rcases List.mem_cons.mp hc with rfl | hc
      · exact hlt
      · exact lt_trans hlt (hd c hc)
    · next hle =>
      refine List.pairwise_cons.mpr ⟨fun c hc => ?_, ih hm (fun c hc => ha c (by simp [hc]))⟩
      rcases Cells.mem_insert.mp hc with rfl | hc
      · show k < a
        omega
      · exact hd c hc

/-- A write keeps the canonical form. -/
theorem Cells.wf_write {m : List (Nat × BitVec w)} {a : Nat} (v : BitVec w) (ha : a < bound)
    (h : Cells.wf dflt bound m) : Cells.wf dflt bound (Cells.write dflt m a v) := by
  unfold Cells.write
  split
  · exact Cells.wf_erase a h
  · next hv =>
    have he := Cells.wf_erase a h
    refine ⟨Cells.pairwise_insert v he.1 (fun c hc => (Cells.mem_erase.mp hc).2), fun c hc => ?_⟩
    rcases Cells.mem_insert.mp hc with rfl | hc
    · exact ⟨ha, hv⟩
    · exact he.2 c hc

/-! ### The two memories -/

theorem Memory.read_write (m : List Host.Cell) (a b : Nat) (v : Byte) :
    Memory.read (Memory.write m a v) b = if b = a then v else Memory.read m b := Cells.read_write m a b v

theorem Memory.wf_write {m : List Host.Cell} {a : Nat} (v : Byte) (ha : a < Config.dmemSize) (h : Memory.wf m) :
    Memory.wf (Memory.write m a v) := Cells.wf_write v ha h

theorem Imem.read_write (m : List (Nat × Word)) (a b : Nat) (v : Word) :
    Imem.read (Imem.write m a v) b = if b = a then v else Imem.read m b := Cells.read_write m a b v

theorem Imem.wf_write {m : List (Nat × Word)} {a : Nat} (v : Word) (ha : a < Config.imemSize) (h : Imem.wf m) :
    Imem.wf (Imem.write m a v) := Cells.wf_write v ha h

theorem Memory.wf_reset : Memory.wf State.reset.dmem := Cells.wf_nil

theorem Imem.wf_reset : Imem.wf State.reset.imem := Cells.wf_nil

end Sys2Proof.Machine
end

