-- ==== Sys2Proof/Laws/Decode.lean ====
section
/-! SUPPORT. The fields of a joined word, the opcode map and its inverse, and what `decode` answers. -/

namespace Sys2Proof

/-- The bits of a joined word. -/
theorem getLsbD_joinFields (op : Opcode) (r1 : RegIdx) (low : BitVec 6) (k : Nat) :
    (joinFields op r1 low).getLsbD k =
      if k < 6 then low.getLsbD k else if k - 6 < 6 then r1.getLsbD (k - 6) else op.getLsbD (k - 6 - 6) := by
  show (op ++ r1 ++ low : BitVec (4 + 6 + 6)).getLsbD k = _
  rw [BitVec.getLsbD_append, BitVec.getLsbD_append]

@[simp] theorem opField_joinFields (op : Opcode) (r1 : RegIdx) (low : BitVec 6) :
    opField (joinFields op r1 low) = op := by
  apply BitVec.eq_of_getLsbD_eq
  intro k hk
  have h1 : ¬12 + k < 6 := by omega
  have h2 : ¬12 + k - 6 < 6 := by omega
  have h3 : 12 + k - 6 - 6 = k := by omega
  simp only [opField, BitVec.getLsbD_extractLsb', getLsbD_joinFields, hk, h1, h2, h3]
  simp

@[simp] theorem r1Field_joinFields (op : Opcode) (r1 : RegIdx) (low : BitVec 6) :
    r1Field (joinFields op r1 low) = r1 := by
  apply BitVec.eq_of_getLsbD_eq
  intro k hk
  have h1 : ¬6 + k < 6 := by omega
  have h2 : 6 + k - 6 = k := by omega
  simp only [r1Field, BitVec.getLsbD_extractLsb', getLsbD_joinFields, hk, h1, h2]
  simp

@[simp] theorem lowField_joinFields (op : Opcode) (r1 : RegIdx) (low : BitVec 6) :
    lowField (joinFields op r1 low) = low := by
  apply BitVec.eq_of_getLsbD_eq
  intro k hk
  simp only [lowField, BitVec.getLsbD_extractLsb', getLsbD_joinFields, hk, Nat.zero_add]
  simp

/-- A word is its three fields. -/
theorem joinFields_fields (w : Word) : joinFields (opField w) (r1Field w) (lowField w) = w := by
  apply BitVec.eq_of_getLsbD_eq
  intro k hk
  have hk : k < 16 := hk
  rw [getLsbD_joinFields]
  simp only [opField, r1Field, lowField, BitVec.getLsbD_extractLsb']
  by_cases h1 : k < 6
  · simp [h1]
  · by_cases h2 : k - 6 < 6
    · have h3 : 6 + (k - 6) = k := by omega
      simp [h1, h2, h3]
    · have h3 : k - 6 - 6 < 4 := by omega
      have h4 : 12 + (k - 6 - 6) = k := by omega
      simp [h1, h2, h3, h4]

/-- OPCODE_MAP is injective (spec/00_scope.md R8). -/
theorem opcodeMap_injective (m n : Mnemonic) : opcodeMap m = opcodeMap n ↔ m = n := by
  cases m <;> cases n <;> decide

/-- The mnemonic of an opcode value is the one OPCODE_MAP gives it. -/
theorem mnemonicOf_eq_some (op : Opcode) (m : Mnemonic) : mnemonicOf op = some m ↔ opcodeMap m = op := by
  revert op m
  suffices h : ∀ op : Opcode, ∀ m ∈ allMnemonics, mnemonicOf op = some m ↔ opcodeMap m = op from
    fun op m => h op m (by cases m <;> decide)
  decide

@[simp] theorem mnemonicOf_opcodeMap (m : Mnemonic) : mnemonicOf (opcodeMap m) = some m :=
  (mnemonicOf_eq_some _ _).mpr rfl

/-- An opcode value names no mnemonic exactly when it is 12 to 15 (R79). -/
theorem mnemonicOf_eq_none (op : Opcode) : mnemonicOf op = none ↔ 12 ≤ op.toNat := by
  revert op; decide

/-- The sentinel's opcode is no instruction's (spec/00_scope.md R8). -/
theorem mnemonicOf_sentinel : mnemonicOf (opField Config.sentinel) = none := by decide

/-- `decode` answers an instruction exactly for the words whose opcode names a mnemonic, and then that mnemonic's. -/
theorem decode_eq_ok (w : Word) (i : Instr) :
    decode w = .ok i ↔ ∃ m, mnemonicOf (opField w) = some m ∧ i = instrOf m (r1Field w) (lowField w) := by
  unfold decode
  split
  · next h => subst h; simp [mnemonicOf_sentinel]
  · split
    · next h => simp [h]
    · next m h => simp [h, eq_comm]

/-- `decode` refuses exactly the words whose opcode names no mnemonic. -/
theorem decode_eq_error (w : Word) : (∃ e, decode w = .error e) ↔ mnemonicOf (opField w) = none := by
  unfold decode
  split
  · next h => subst h; simp [mnemonicOf_sentinel]
  · split
    · next h => simp [h]
    · next m h => simp [h]

@[simp] theorem mnemonic_instrOf (m : Mnemonic) (r1 : RegIdx) (low : BitVec 6) : (instrOf m r1 low).mnemonic = m := by
  cases m <;> rfl

/-- The sign extension of a field is an immediate of R76's signed range. -/
theorem signedImmOk_sextImm (f : BitVec 6) : signedImmOk (sextImm f) = true := by revert f; decide

/-- The zero extension of a field is an immediate of R76's unsigned range. -/
theorem unsignedImmOk_zextImm (f : BitVec 6) : unsignedImmOk (zextImm f) = true := by revert f; decide

/-- An immediate in the signed range is the sign extension of its low six bits. -/
theorem sextImm_setWidth (b : Byte) (h : signedImmOk b = true) : sextImm (b.setWidth 6) = b := by
  revert b; decide

/-- An immediate in the unsigned range is the zero extension of its low six bits. -/
theorem zextImm_setWidth (b : Byte) (h : unsignedImmOk b = true) : zextImm (b.setWidth 6) = b := by
  revert b; decide

@[simp] theorem setWidth_sextImm (f : BitVec 6) : (sextImm f).setWidth 6 = f := by revert f; decide

@[simp] theorem setWidth_zextImm (f : BitVec 6) : (zextImm f).setWidth 6 = f := by revert f; decide

/-- Whatever the fields, the instruction made of them is well formed. -/
theorem wellFormed_instrOf (m : Mnemonic) (r1 : RegIdx) (low : BitVec 6) : WellFormed (instrOf m r1 low) = true := by
  cases m <;> simp [instrOf, WellFormed, signedImmOk_sextImm, unsignedImmOk_zextImm]

end Sys2Proof
end

