-- ==== Sys2Proof/Laws/Flags.lean ====
section
/-! SUPPORT. What each flag reads as after each flag computation, and the reserved bits none of them writes. -/

namespace Sys2Proof.Machine

/-- Everything a flag write does to what the flags read as. -/
theorem getFlag_setFlag (f g : Flag) (b : Bool) (sreg : Byte) :
    getFlag f (setFlag g b sreg) = if f = g then b else getFlag f sreg := by
  cases f <;> cases g <;> cases b <;> simp [getFlag, setFlag, Flag.bit]

/-- A flag write leaves the reserved bits. -/
@[simp] theorem reservedBits_setFlag (g : Flag) (b : Bool) (sreg : Byte) :
    reservedBits (setFlag g b sreg) = reservedBits sreg := by
  apply BitVec.eq_of_getLsbD_eq
  intro k hk
  have hk : k < 3 := hk
  have : k = 0 ∨ k = 1 ∨ k = 2 := by omega
  rcases this with rfl | rfl | rfl <;> cases g <;> cases b <;> simp [reservedBits, setFlag, Flag.bit]

theorem getFlag_logicFlags (f : Flag) (res sreg : Byte) :
    getFlag f (logicFlags res sreg) =
      match f with
      | .N => negativeOf res
      | .Z => zeroOf res
      | .C => getFlag .C sreg
      | .V => getFlag .V sreg
      | .S => getFlag .S sreg := by
  cases f <;> simp [logicFlags, getFlag_setFlag]

theorem getFlag_signedFlags (f : Flag) (exact : Int) (res sreg : Byte) :
    getFlag f (signedFlags exact res sreg) =
      match f with
      | .V => signedOverflow exact
      | .N => negativeOf res
      | .S => negativeOf res ^^ signedOverflow exact
      | .Z => zeroOf res
      | .C => getFlag .C sreg := by
  cases f <;> simp [signedFlags, getFlag_logicFlags, getFlag_setFlag]

@[simp] theorem reservedBits_logicFlags (res sreg : Byte) :
    reservedBits (logicFlags res sreg) = reservedBits sreg := by simp [logicFlags]

@[simp] theorem reservedBits_signedFlags (exact : Int) (res sreg : Byte) :
    reservedBits (signedFlags exact res sreg) = reservedBits sreg := by simp [signedFlags]

@[simp] theorem reservedBits_addFlags (mode : Config.CarryMode) (a b res sreg : Byte) :
    reservedBits (addFlags mode a b res sreg) = reservedBits sreg := by simp [addFlags]

@[simp] theorem reservedBits_subFlags (a b res sreg : Byte) :
    reservedBits (subFlags a b res sreg) = reservedBits sreg := by simp [subFlags]

@[simp] theorem reservedBits_mulFlags (mode : Config.MulSignMode) (res sreg : Byte) :
    reservedBits (mulFlags mode res sreg) = reservedBits sreg := by cases mode <;> simp [mulFlags]

end Sys2Proof.Machine
end

