-- ==== Sys2Proof/Laws/State.lean ====
section
/-! SUPPORT. One lemma per field per update of State, so that no proof unfolds a record update. -/

namespace Sys2Proof.Machine

/-! ### writeReg -/

@[simp] theorem writeReg_x (i : RegIdx) (v : Byte) (s : State) : (writeReg i v s).x = s.x.set i.toNat v i.isLt := rfl
@[simp] theorem writeReg_pc (i : RegIdx) (v : Byte) (s : State) : (writeReg i v s).pc = s.pc := rfl
@[simp] theorem writeReg_sreg (i : RegIdx) (v : Byte) (s : State) : (writeReg i v s).sreg = s.sreg := rfl
@[simp] theorem writeReg_fd (i : RegIdx) (v : Byte) (s : State) : (writeReg i v s).fd = s.fd := rfl
@[simp] theorem writeReg_de (i : RegIdx) (v : Byte) (s : State) : (writeReg i v s).de = s.de := rfl
@[simp] theorem writeReg_lat (i : RegIdx) (v : Byte) (s : State) : (writeReg i v s).lat = s.lat := rfl
@[simp] theorem writeReg_dstall (i : RegIdx) (v : Byte) (s : State) : (writeReg i v s).dstall = s.dstall := rfl
@[simp] theorem writeReg_estall (i : RegIdx) (v : Byte) (s : State) : (writeReg i v s).estall = s.estall := rfl
@[simp] theorem writeReg_stop (i : RegIdx) (v : Byte) (s : State) : (writeReg i v s).stop = s.stop := rfl
@[simp] theorem writeReg_cycle (i : RegIdx) (v : Byte) (s : State) : (writeReg i v s).cycle = s.cycle := rfl
@[simp] theorem writeReg_status (i : RegIdx) (v : Byte) (s : State) : (writeReg i v s).status = s.status := rfl
@[simp] theorem writeReg_imem (i : RegIdx) (v : Byte) (s : State) : (writeReg i v s).imem = s.imem := rfl
@[simp] theorem writeReg_dmem (i : RegIdx) (v : Byte) (s : State) : (writeReg i v s).dmem = s.dmem := rfl

/-! ### writeByte -/

@[simp] theorem writeByte_x (a : Nat) (v : Byte) (s : State) : (writeByte a v s).x = s.x := rfl
@[simp] theorem writeByte_pc (a : Nat) (v : Byte) (s : State) : (writeByte a v s).pc = s.pc := rfl
@[simp] theorem writeByte_sreg (a : Nat) (v : Byte) (s : State) : (writeByte a v s).sreg = s.sreg := rfl
@[simp] theorem writeByte_fd (a : Nat) (v : Byte) (s : State) : (writeByte a v s).fd = s.fd := rfl
@[simp] theorem writeByte_de (a : Nat) (v : Byte) (s : State) : (writeByte a v s).de = s.de := rfl
@[simp] theorem writeByte_lat (a : Nat) (v : Byte) (s : State) : (writeByte a v s).lat = s.lat := rfl
@[simp] theorem writeByte_dstall (a : Nat) (v : Byte) (s : State) : (writeByte a v s).dstall = s.dstall := rfl
@[simp] theorem writeByte_estall (a : Nat) (v : Byte) (s : State) : (writeByte a v s).estall = s.estall := rfl
@[simp] theorem writeByte_stop (a : Nat) (v : Byte) (s : State) : (writeByte a v s).stop = s.stop := rfl
@[simp] theorem writeByte_cycle (a : Nat) (v : Byte) (s : State) : (writeByte a v s).cycle = s.cycle := rfl
@[simp] theorem writeByte_status (a : Nat) (v : Byte) (s : State) : (writeByte a v s).status = s.status := rfl
@[simp] theorem writeByte_imem (a : Nat) (v : Byte) (s : State) : (writeByte a v s).imem = s.imem := rfl
@[simp] theorem writeByte_dmem (a : Nat) (v : Byte) (s : State) : (writeByte a v s).dmem = Memory.write s.dmem a v := rfl

/-! ### setSreg -/

@[simp] theorem setSreg_x (v : Byte) (s : State) : (setSreg v s).x = s.x := rfl
@[simp] theorem setSreg_pc (v : Byte) (s : State) : (setSreg v s).pc = s.pc := rfl
@[simp] theorem setSreg_sreg (v : Byte) (s : State) : (setSreg v s).sreg = v := rfl
@[simp] theorem setSreg_fd (v : Byte) (s : State) : (setSreg v s).fd = s.fd := rfl
@[simp] theorem setSreg_de (v : Byte) (s : State) : (setSreg v s).de = s.de := rfl
@[simp] theorem setSreg_lat (v : Byte) (s : State) : (setSreg v s).lat = s.lat := rfl
@[simp] theorem setSreg_dstall (v : Byte) (s : State) : (setSreg v s).dstall = s.dstall := rfl
@[simp] theorem setSreg_estall (v : Byte) (s : State) : (setSreg v s).estall = s.estall := rfl
@[simp] theorem setSreg_stop (v : Byte) (s : State) : (setSreg v s).stop = s.stop := rfl
@[simp] theorem setSreg_cycle (v : Byte) (s : State) : (setSreg v s).cycle = s.cycle := rfl
@[simp] theorem setSreg_status (v : Byte) (s : State) : (setSreg v s).status = s.status := rfl
@[simp] theorem setSreg_imem (v : Byte) (s : State) : (setSreg v s).imem = s.imem := rfl
@[simp] theorem setSreg_dmem (v : Byte) (s : State) : (setSreg v s).dmem = s.dmem := rfl

/-! ### setLatch -/

@[simp] theorem setLatch_x (l : Latch) (s : State) : (setLatch l s).x = s.x := rfl
@[simp] theorem setLatch_pc (l : Latch) (s : State) : (setLatch l s).pc = s.pc := rfl
@[simp] theorem setLatch_sreg (l : Latch) (s : State) : (setLatch l s).sreg = s.sreg := rfl
@[simp] theorem setLatch_fd (l : Latch) (s : State) : (setLatch l s).fd = s.fd := rfl
@[simp] theorem setLatch_de (l : Latch) (s : State) : (setLatch l s).de = s.de := rfl
@[simp] theorem setLatch_lat (l : Latch) (s : State) : (setLatch l s).lat = l := rfl
@[simp] theorem setLatch_dstall (l : Latch) (s : State) : (setLatch l s).dstall = s.dstall := rfl
@[simp] theorem setLatch_estall (l : Latch) (s : State) : (setLatch l s).estall = s.estall := rfl
@[simp] theorem setLatch_stop (l : Latch) (s : State) : (setLatch l s).stop = s.stop := rfl
@[simp] theorem setLatch_cycle (l : Latch) (s : State) : (setLatch l s).cycle = s.cycle := rfl
@[simp] theorem setLatch_status (l : Latch) (s : State) : (setLatch l s).status = s.status := rfl
@[simp] theorem setLatch_imem (l : Latch) (s : State) : (setLatch l s).imem = s.imem := rfl
@[simp] theorem setLatch_dmem (l : Latch) (s : State) : (setLatch l s).dmem = s.dmem := rfl

/-! ### writeResult -/

@[simp] theorem writeResult_x (r : RegIdx) (v : Byte) (s : State) : (writeResult r v s).x = s.x.set r.toNat v r.isLt := rfl
@[simp] theorem writeResult_pc (r : RegIdx) (v : Byte) (s : State) : (writeResult r v s).pc = s.pc := rfl
@[simp] theorem writeResult_sreg (r : RegIdx) (v : Byte) (s : State) : (writeResult r v s).sreg = s.sreg := rfl
@[simp] theorem writeResult_fd (r : RegIdx) (v : Byte) (s : State) : (writeResult r v s).fd = s.fd := rfl
@[simp] theorem writeResult_de (r : RegIdx) (v : Byte) (s : State) : (writeResult r v s).de = s.de := rfl
@[simp] theorem writeResult_lat (r : RegIdx) (v : Byte) (s : State) : (writeResult r v s).lat = ⟨true, v, some r⟩ := rfl
@[simp] theorem writeResult_dstall (r : RegIdx) (v : Byte) (s : State) : (writeResult r v s).dstall = s.dstall := rfl
@[simp] theorem writeResult_estall (r : RegIdx) (v : Byte) (s : State) : (writeResult r v s).estall = s.estall := rfl
@[simp] theorem writeResult_stop (r : RegIdx) (v : Byte) (s : State) : (writeResult r v s).stop = s.stop := rfl
@[simp] theorem writeResult_cycle (r : RegIdx) (v : Byte) (s : State) : (writeResult r v s).cycle = s.cycle := rfl
@[simp] theorem writeResult_status (r : RegIdx) (v : Byte) (s : State) : (writeResult r v s).status = s.status := rfl
@[simp] theorem writeResult_imem (r : RegIdx) (v : Byte) (s : State) : (writeResult r v s).imem = s.imem := rfl
@[simp] theorem writeResult_dmem (r : RegIdx) (v : Byte) (s : State) : (writeResult r v s).dmem = s.dmem := rfl

/-! ### recordStore -/

@[simp] theorem recordStore_x (v : Byte) (s : State) : (recordStore v s).x = s.x := rfl
@[simp] theorem recordStore_pc (v : Byte) (s : State) : (recordStore v s).pc = s.pc := rfl
@[simp] theorem recordStore_sreg (v : Byte) (s : State) : (recordStore v s).sreg = s.sreg := rfl
@[simp] theorem recordStore_fd (v : Byte) (s : State) : (recordStore v s).fd = s.fd := rfl
@[simp] theorem recordStore_de (v : Byte) (s : State) : (recordStore v s).de = s.de := rfl
@[simp] theorem recordStore_lat (v : Byte) (s : State) : (recordStore v s).lat = ⟨true, v, none⟩ := rfl
@[simp] theorem recordStore_dstall (v : Byte) (s : State) : (recordStore v s).dstall = s.dstall := rfl
@[simp] theorem recordStore_estall (v : Byte) (s : State) : (recordStore v s).estall = s.estall := rfl
@[simp] theorem recordStore_stop (v : Byte) (s : State) : (recordStore v s).stop = s.stop := rfl
@[simp] theorem recordStore_cycle (v : Byte) (s : State) : (recordStore v s).cycle = s.cycle := rfl
@[simp] theorem recordStore_status (v : Byte) (s : State) : (recordStore v s).status = s.status := rfl
@[simp] theorem recordStore_imem (v : Byte) (s : State) : (recordStore v s).imem = s.imem := rfl
@[simp] theorem recordStore_dmem (v : Byte) (s : State) : (recordStore v s).dmem = s.dmem := rfl

/-! ### raiseFatal -/

@[simp] theorem raiseFatal_x (e : FatalError) (s : State) : (raiseFatal e s).x = s.x := rfl
@[simp] theorem raiseFatal_pc (e : FatalError) (s : State) : (raiseFatal e s).pc = s.pc := rfl
@[simp] theorem raiseFatal_sreg (e : FatalError) (s : State) : (raiseFatal e s).sreg = s.sreg := rfl
@[simp] theorem raiseFatal_fd (e : FatalError) (s : State) : (raiseFatal e s).fd = s.fd := rfl
@[simp] theorem raiseFatal_de (e : FatalError) (s : State) : (raiseFatal e s).de = s.de := rfl
@[simp] theorem raiseFatal_lat (e : FatalError) (s : State) : (raiseFatal e s).lat = s.lat := rfl
@[simp] theorem raiseFatal_dstall (e : FatalError) (s : State) : (raiseFatal e s).dstall = s.dstall := rfl
@[simp] theorem raiseFatal_estall (e : FatalError) (s : State) : (raiseFatal e s).estall = s.estall := rfl
@[simp] theorem raiseFatal_stop (e : FatalError) (s : State) : (raiseFatal e s).stop = s.stop := rfl
@[simp] theorem raiseFatal_cycle (e : FatalError) (s : State) : (raiseFatal e s).cycle = s.cycle := rfl
@[simp] theorem raiseFatal_status (e : FatalError) (s : State) : (raiseFatal e s).status = .faulted e := rfl
@[simp] theorem raiseFatal_imem (e : FatalError) (s : State) : (raiseFatal e s).imem = s.imem := rfl
@[simp] theorem raiseFatal_dmem (e : FatalError) (s : State) : (raiseFatal e s).dmem = s.dmem := rfl

/-! ### takeBranch -/

@[simp] theorem takeBranch_x (t : Word) (s : State) : (takeBranch t s).x = s.x := rfl
@[simp] theorem takeBranch_pc (t : Word) (s : State) : (takeBranch t s).pc = t := rfl
@[simp] theorem takeBranch_sreg (t : Word) (s : State) : (takeBranch t s).sreg = s.sreg := rfl
@[simp] theorem takeBranch_fd (t : Word) (s : State) : (takeBranch t s).fd = none := rfl
@[simp] theorem takeBranch_de (t : Word) (s : State) : (takeBranch t s).de = none := rfl
@[simp] theorem takeBranch_lat (t : Word) (s : State) : (takeBranch t s).lat = s.lat := rfl
@[simp] theorem takeBranch_dstall (t : Word) (s : State) : (takeBranch t s).dstall = 1 := rfl
@[simp] theorem takeBranch_estall (t : Word) (s : State) : (takeBranch t s).estall = 2 := rfl
@[simp] theorem takeBranch_stop (t : Word) (s : State) : (takeBranch t s).stop = s.stop := rfl
@[simp] theorem takeBranch_cycle (t : Word) (s : State) : (takeBranch t s).cycle = s.cycle := rfl
@[simp] theorem takeBranch_status (t : Word) (s : State) : (takeBranch t s).status = s.status := rfl
@[simp] theorem takeBranch_imem (t : Word) (s : State) : (takeBranch t s).imem = s.imem := rfl
@[simp] theorem takeBranch_dmem (t : Word) (s : State) : (takeBranch t s).dmem = s.dmem := rfl

end Sys2Proof.Machine
end

