-- ==== Sys2Proof/Laws/Ops.lean ====
section
/-! SUPPORT. What reading a register or a data cell gives after each update, and what the storage contract answers. -/

namespace Sys2Proof.Machine

/-- A register reads from the register file alone. -/
theorem readReg_congr {s t : State} (h : t.x = s.x) (q : RegIdx) : readReg q t = readReg q s := by
  simp [readReg, h]

/-- A data cell reads from data memory alone. -/
theorem readByte_congr {s t : State} (h : t.dmem = s.dmem) (a : Nat) : readByte t a = readByte s a := by
  simp [readByte, h]

theorem toNat_eq_iff (q i : RegIdx) : q.toNat = i.toNat ↔ q = i := BitVec.toNat_inj

/-- Everything a register write does to what the registers read as. -/
theorem readReg_writeReg (q i : RegIdx) (v : Byte) (s : State) :
    readReg q (writeReg i v s) = if q = i then v else readReg q s := by
  simp only [readReg, writeReg, Vector.getElem_set, toNat_eq_iff]
  by_cases h : i = q
  · simp [h]
  · simp [h, Ne.symm h]

theorem readReg_writeResult (q r : RegIdx) (v : Byte) (s : State) :
    readReg q (writeResult r v s) = if q = r then v else readReg q s := readReg_writeReg q r v s

@[simp] theorem readReg_writeByte (q : RegIdx) (a : Nat) (v : Byte) (s : State) :
    readReg q (writeByte a v s) = readReg q s := rfl

@[simp] theorem readReg_setSreg (q : RegIdx) (v : Byte) (s : State) : readReg q (setSreg v s) = readReg q s := rfl

@[simp] theorem readReg_setLatch (q : RegIdx) (l : Latch) (s : State) : readReg q (setLatch l s) = readReg q s := rfl

@[simp] theorem readReg_recordStore (q : RegIdx) (v : Byte) (s : State) : readReg q (recordStore v s) = readReg q s := rfl

@[simp] theorem readReg_raiseFatal (q : RegIdx) (e : FatalError) (s : State) :
    readReg q (raiseFatal e s) = readReg q s := rfl

@[simp] theorem readReg_takeBranch (q : RegIdx) (t : Word) (s : State) : readReg q (takeBranch t s) = readReg q s := rfl

/-- Everything a data write does to what data memory reads as. -/
theorem readByte_writeByte (b a : Nat) (v : Byte) (s : State) :
    readByte (writeByte a v s) b = if b = a then v else readByte s b := Memory.read_write s.dmem a b v

@[simp] theorem readByte_writeReg (a : Nat) (i : RegIdx) (v : Byte) (s : State) :
    readByte (writeReg i v s) a = readByte s a := rfl

@[simp] theorem readByte_writeResult (a : Nat) (r : RegIdx) (v : Byte) (s : State) :
    readByte (writeResult r v s) a = readByte s a := rfl

@[simp] theorem readByte_setSreg (a : Nat) (v : Byte) (s : State) : readByte (setSreg v s) a = readByte s a := rfl

@[simp] theorem readByte_setLatch (a : Nat) (l : Latch) (s : State) : readByte (setLatch l s) a = readByte s a := rfl

@[simp] theorem readByte_recordStore (a : Nat) (v : Byte) (s : State) : readByte (recordStore v s) a = readByte s a := rfl

@[simp] theorem readByte_raiseFatal (a : Nat) (e : FatalError) (s : State) :
    readByte (raiseFatal e s) a = readByte s a := rfl

@[simp] theorem readByte_takeBranch (a : Nat) (t : Word) (s : State) : readByte (takeBranch t s) a = readByte s a := rfl

/-- An unsigned 8-bit address is always a data cell's, so a load of it answers that cell. -/
@[simp] theorem readData_effectiveAddress (imm : Byte) (s : State) :
    readData imm.toNat s = .ok (readByte s imm.toNat) := by
  have h : imm.toNat < 256 := imm.isLt
  simp only [readData, Config.dmemSize]
  rw [if_pos (by omega)]

/-- An unsigned 8-bit address is always a data cell's, so a store to it writes that cell. -/
@[simp] theorem writeData_effectiveAddress (imm v : Byte) (s : State) :
    writeData imm.toNat v s = .ok (writeByte imm.toNat v s) := by
  have h : imm.toNat < 256 := imm.isLt
  simp only [writeData, Config.dmemSize]
  rw [if_pos (by omega)]

/-- The two answers of an instruction read. -/
theorem readInstruction_eq (a : Nat) (s : State) :
    readInstruction a s = if a < 1024 then .ok (Imem.read s.imem a) else .error (.outOfBounds .fetch a) := rfl

/-- A 6-bit index is always a register's: the storage contract and the core's own read agree. -/
theorem readRegister_regIdx (i : RegIdx) (s : State) : readRegister i.toNat s = .ok (readReg i s) := by
  have h : i.toNat < 64 := i.isLt
  simp [readRegister, readReg, h]

end Sys2Proof.Machine
end

