-- ==== Sys2Proof/Laws/Exec.lean ====
section
/-! SUPPORT. What `exec` answers for each instruction, in the shared operations' terms; later proofs cite these and do not
unfold a meaning. -/

namespace Sys2Proof.Machine

theorem exec_add (r1 r2 : RegIdx) (s : State) :
    exec (.add r1 r2) s = .next (writeResult r1 (trunc8 (uval (operandA r1 s) + uval (operandB r2 s)))
      (setSreg (addFlags Config.carryMode (operandA r1 s) (operandB r2 s)
        (trunc8 (uval (operandA r1 s) + uval (operandB r2 s))) s.sreg) s)) := rfl

theorem exec_sub (r1 r2 : RegIdx) (s : State) :
    exec (.sub r1 r2) s = .next (writeResult r1 (trunc8 (sval (operandA r1 s) - sval (operandB r2 s)))
      (setSreg (subFlags (operandA r1 s) (operandB r2 s)
        (trunc8 (sval (operandA r1 s) - sval (operandB r2 s))) s.sreg) s)) := rfl

theorem exec_mul (r1 r2 : RegIdx) (s : State) :
    exec (.mul r1 r2) s = .next (writeResult r1 (trunc8 (sval (operandA r1 s) * sval (operandB r2 s)))
      (setSreg (mulFlags Config.mulSignMode (trunc8 (sval (operandA r1 s) * sval (operandB r2 s))) s.sreg) s)) := rfl

theorem exec_movi (r1 : RegIdx) (imm : Byte) (s : State) :
    exec (.movi r1 imm) s = .next (writeResult r1 imm s) := rfl

theorem exec_beqz (r1 : RegIdx) (imm : Byte) (s : State) :
    exec (.beqz r1 imm) s =
      .next (if decodedV1 r1 s = 0x00 then takeBranch (relativeTarget (recordPc1 s) imm) s else s) := by
  simp only [exec, execBeqz]
  split <;> rfl

theorem exec_andi (r1 : RegIdx) (imm : Byte) (s : State) :
    exec (.andi r1 imm) s = .next (writeLogicResult r1 (operandA r1 s &&& imm) s) := rfl

theorem exec_eor (r1 r2 : RegIdx) (s : State) :
    exec (.eor r1 r2) s = .next (writeLogicResult r1 (operandA r1 s ^^^ operandB r2 s) s) := rfl

theorem exec_br (r1 r2 : RegIdx) (s : State) :
    exec (.br r1 r2) s = .next (takeBranch (pairTarget (decodedV1 r1 s) (decodedV2 r2 s)) s) := rfl

theorem exec_sal (r1 : RegIdx) (imm : Byte) (s : State) :
    exec (.sal r1 imm) s = .next (writeLogicResult r1 (shiftLeft (operandA r1 s) (uval imm)) s) := rfl

theorem exec_sar (r1 : RegIdx) (imm : Byte) (s : State) :
    exec (.sar r1 imm) s = .next (writeLogicResult r1 (shiftRight (operandA r1 s) (uval imm)) s) := rfl

theorem exec_ldr (r1 : RegIdx) (imm : Byte) (s : State) :
    exec (.ldr r1 imm) s = .next (writeResult r1 (readByte s (uval imm)) s) := by
  simp [exec, execLdr, effectiveAddress]

theorem exec_str (r1 : RegIdx) (imm : Byte) (s : State) :
    exec (.str r1 imm) s = .next (recordStore (operandA r1 s) (writeByte (uval imm) (operandA r1 s) s)) := by
  simp [exec, execStr, effectiveAddress]

/-- Everything an instruction can do to the state (spec/45_pipeline.md R161): write a result to r1 with some SREG; store
one byte; take a branch; or, a BEQZ not taken, nothing. -/
theorem exec_cases (i : Instr) (s : State) :
    (∃ r1 v sreg, writesR1 i.mnemonic = true ∧ exec i s = .next (writeResult r1 v (setSreg sreg s)) ∧
        reservedBits sreg = reservedBits s.sreg) ∨
      (∃ r1 imm, i = .str r1 imm ∧
        exec i s = .next (recordStore (operandA r1 s) (writeByte (uval imm) (operandA r1 s) s))) ∨
      (∃ target, branchTargetOf i s = some target ∧ exec i s = .next (takeBranch target s)) ∨
      (isBranch i.mnemonic = true ∧ branchTargetOf i s = none ∧ exec i s = .next s) := by
  cases i with
  | add r1 r2 => exact .inl ⟨r1, _, _, rfl, exec_add r1 r2 s, by simp⟩
  | sub r1 r2 => exact .inl ⟨r1, _, _, rfl, exec_sub r1 r2 s, by simp⟩
  | mul r1 r2 => exact .inl ⟨r1, _, _, rfl, exec_mul r1 r2 s, by simp⟩
  | movi r1 imm => exact .inl ⟨r1, imm, s.sreg, rfl, rfl, rfl⟩
  | beqz r1 imm =>
    by_cases h : decodedV1 r1 s = 0x00
    · exact .inr (.inr (.inl ⟨_, if_pos h, by rw [exec_beqz, if_pos h]⟩))
    · exact .inr (.inr (.inr ⟨rfl, if_neg h, by rw [exec_beqz, if_neg h]⟩))
  | andi r1 imm => exact .inl ⟨r1, _, _, rfl, exec_andi r1 imm s, by simp⟩
  | eor r1 r2 => exact .inl ⟨r1, _, _, rfl, exec_eor r1 r2 s, by simp⟩
  | br r1 r2 => exact .inr (.inr (.inl ⟨_, rfl, exec_br r1 r2 s⟩))
  | sal r1 imm => exact .inl ⟨r1, _, _, rfl, exec_sal r1 imm s, by simp⟩
  | sar r1 imm => exact .inl ⟨r1, _, _, rfl, exec_sar r1 imm s, by simp⟩
  | ldr r1 imm => exact .inl ⟨r1, _, s.sreg, rfl, exec_ldr r1 imm s, rfl⟩
  | str r1 imm => exact .inr (.inl ⟨r1, imm, rfl, exec_str r1 imm s⟩)

end Sys2Proof.Machine
end

