-- ==== Sys2Proof/Laws/Cycle.lean ====
section
/-! SUPPORT. What each stage and the whole cycle answer: one lemma that says once everything a step can do, and the fields
of a committed state. -/

namespace Sys2Proof.Machine

/-- The three answers of Fetch: blocked, out of bounds, or a read of the word at the PC. -/
theorem fetchStage_eq (s : State) :
    fetchStage s =
      if 3 ≤ s.stop.val then .ok { record := none, pc := s.pc, stop := s.stop }
      else if s.pc.toNat < 1024 then
        if wordAtPc s = 0xFFFF then .ok { record := none, pc := s.pc, stop := s.stop + 1 }
        else .ok { record := some { word := wordAtPc s, pc1 := s.pc + 1 }, pc := s.pc + 1, stop := 0 }
      else .error (.outOfBounds .fetch s.pc.toNat) := by
  simp only [fetchStage, fetchBlocked, readInstruction, decide_eq_true_eq, wordAtPc, isSentinel, Config.sentinel, beq_iff_eq]
  by_cases h1 : 3 ≤ s.stop.val
  · simp [h1]
  · by_cases h2 : s.pc.toNat < 1024
    · by_cases h3 : Imem.read s.imem s.pc.toNat = 0xFFFF#16
      · simp [h1, h2, h3]
      · simp [h1, h2, h3]
    · simp [h1, h2, FatalError.ofFault]

/-- Execute answers a state, and either it is the fatal error of a reserved opcode or the status is as before. -/
theorem executeStage_cases (s : State) :
    (∃ r, s.estall = 0 ∧ s.de = some r ∧ mnemonicOf (opField r.word) = none ∧
        executeStage s = .next (raiseFatal (unknownOpcodeOf r) s)) ∨
      (∃ r i e, s.estall = 0 ∧ s.de = some r ∧ decode r.word = .ok i ∧ exec i s = .next e ∧ e.status = s.status ∧
        executeStage s = .next e) ∨
      (s.estall = 0 ∧ s.de = none ∧ executeStage s = .next s) ∨
      (s.estall ≠ 0 ∧ executeStage s = .next { s with estall := s.estall - 1 }) := by
  unfold executeStage
  by_cases h : s.estall = 0
  · cases hde : s.de with
    | none => simp [h]
    | some r =>
      cases hd : decode r.word with
      | error x => exact .inl ⟨r, h, rfl, (decode_eq_error _).mp ⟨x, hd⟩, by simp [h, hd]⟩
      | ok i =>
        refine .inr (.inl ⟨r, i, ?_⟩)
        rcases exec_cases i s with ⟨q, v, f, -, he, -⟩ | ⟨q, imm, -, he⟩ | ⟨t, -, he⟩ | ⟨-, -, he⟩
        · exact ⟨_, h, rfl, hd, he, rfl, by simp [h, hd, he]⟩
        · exact ⟨_, h, rfl, hd, he, rfl, by simp [h, hd, he]⟩
        · exact ⟨_, h, rfl, hd, he, rfl, by simp [h, hd, he]⟩
        · exact ⟨_, h, rfl, hd, he, rfl, by simp [h, hd, he]⟩
  · simp [h]

/-- Everything a step of a running core can do: take a fatal error, or commit the three stages' work. -/
theorem step_running_cases {s t : State} (hs : s.status = .running) (h : step s = .next t) :
    (∃ e, t = raiseFatal e s) ∨
      ∃ f e, fetchStage s = .ok f ∧ executeStage s = .next e ∧ e.status = .running ∧ fdOverflows s f = false ∧
        deOverflows s = false ∧ t = commit s f e := by
  simp only [step, clockEdge, hs, cycleStep] at h
  cases hf : fetchStage s with
  | error x => rw [hf] at h; exact .inl ⟨x, by simpa using h.symm⟩
  | ok f =>
    rw [hf] at h
    have key : ∀ e, executeStage s = .next e → e.status = .running →
        (∃ x, t = raiseFatal x s) ∨ ∃ f' e', Except.ok (ε := FatalError) f = .ok f' ∧ executeStage s = .next e' ∧
          e'.status = .running ∧ fdOverflows s f' = false ∧ deOverflows s = false ∧ t = commit s f' e' := by
      intro e he hst
      simp only [he, hst] at h
      by_cases h1 : fdOverflows s f = true
      · rw [if_pos h1] at h
        exact .inl ⟨_, by simpa using h.symm⟩
      · by_cases h2 : deOverflows s = true
        · rw [if_neg h1, if_pos h2] at h
          exact .inl ⟨_, by simpa using h.symm⟩
        · rw [if_neg h1, if_neg h2] at h
          exact .inr ⟨f, e, rfl, he, hst, by simpa using h1, by simpa using h2, by simpa using h.symm⟩
    rcases executeStage_cases s with ⟨r, -, -, -, he⟩ | ⟨r, i, e, -, -, -, -, hst, he⟩ | ⟨-, -, he⟩ | ⟨-, he⟩
    · rw [he] at h
      exact .inl ⟨_, by simpa using h.symm⟩
    · exact key _ he (hst.trans hs)
    · exact key _ he hs
    · exact key _ he hs

/-- A step of a core that does not run changes nothing. -/
theorem step_not_running {s t : State} (hs : s.status ≠ .running) (h : step s = .next t) : t = s := by
  cases hst : s.status with
  | running => exact absurd hst hs
  | halted => simpa [step, clockEdge, hst] using h.symm
  | faulted e => simpa [step, clockEdge, hst] using h.symm

/-! ### The fields of a committed state -/

variable (s : State) (f : FetchResult) (e : State)

@[simp] theorem commit_x : (commit s f e).x = e.x := by simp only [commit, commitStages]; split <;> rfl
@[simp] theorem commit_sreg : (commit s f e).sreg = e.sreg := by simp only [commit, commitStages]; split <;> rfl
@[simp] theorem commit_lat : (commit s f e).lat = e.lat := by simp only [commit, commitStages]; split <;> rfl
@[simp] theorem commit_estall : (commit s f e).estall = e.estall := by simp only [commit, commitStages]; split <;> rfl
@[simp] theorem commit_imem : (commit s f e).imem = e.imem := by simp only [commit, commitStages]; split <;> rfl
@[simp] theorem commit_dmem : (commit s f e).dmem = e.dmem := by simp only [commit, commitStages]; split <;> rfl
@[simp] theorem commit_stop : (commit s f e).stop = f.stop := rfl
@[simp] theorem commit_cycle : (commit s f e).cycle = s.cycle + 1 := rfl

theorem commit_status : (commit s f e).status = statusAfter f.stop (commit s f e).de := rfl

theorem commit_pc : (commit s f e).pc = if branchTaken s e then e.pc else f.pc := by
  simp only [commit, commitStages]; split <;> rfl

theorem commit_fd :
    (commit s f e).fd = if branchTaken s e then e.fd else slotAfter f.record (decodePops s) s.fd := by
  simp only [commit, commitStages]; split <;> rfl

theorem commit_de :
    (commit s f e).de = if branchTaken s e then e.de else slotAfter (decodeStage s) (executePops s) s.de := by
  simp only [commit, commitStages]; split <;> rfl

theorem commit_dstall :
    (commit s f e).dstall = if branchTaken s e then e.dstall else decodeStallAfter s := by
  simp only [commit, commitStages]; split <;> rfl

end Sys2Proof.Machine
end

