-- ==== Sys2Proof/Laws/PerInstr.lean ====
section
/-! SUPPORT. Statements made for every instruction, one lemma per constructor. -/

namespace Sys2Proof.Laws.EncodedFields

/-- The word of an instruction has the instruction's OPCODE_MAP value as its opcode field (spec/30_encoding.md R71, R77). -/
def Statement (i : Instr) : Prop := opField (encode i) = opcodeMap i.mnemonic

theorem add (r1 r2 : RegIdx) : Statement (.add r1 r2) := opField_joinFields _ _ _
theorem sub (r1 r2 : RegIdx) : Statement (.sub r1 r2) := opField_joinFields _ _ _
theorem mul (r1 r2 : RegIdx) : Statement (.mul r1 r2) := opField_joinFields _ _ _
theorem movi (r1 : RegIdx) (imm : Byte) : Statement (.movi r1 imm) := opField_joinFields _ _ _
theorem beqz (r1 : RegIdx) (imm : Byte) : Statement (.beqz r1 imm) := opField_joinFields _ _ _
theorem andi (r1 : RegIdx) (imm : Byte) : Statement (.andi r1 imm) := opField_joinFields _ _ _
theorem eor (r1 r2 : RegIdx) : Statement (.eor r1 r2) := opField_joinFields _ _ _
theorem br (r1 r2 : RegIdx) : Statement (.br r1 r2) := opField_joinFields _ _ _
theorem sal (r1 : RegIdx) (imm : Byte) : Statement (.sal r1 imm) := opField_joinFields _ _ _
theorem sar (r1 : RegIdx) (imm : Byte) : Statement (.sar r1 imm) := opField_joinFields _ _ _
theorem ldr (r1 : RegIdx) (imm : Byte) : Statement (.ldr r1 imm) := opField_joinFields _ _ _
theorem str (r1 : RegIdx) (imm : Byte) : Statement (.str r1 imm) := opField_joinFields _ _ _

end Sys2Proof.Laws.EncodedFields
end

