-- ==== Sys2Proof/Tests/Slice0.lean ====
section
/-! SUPPORT. Small tests. Expected results come from spec/95_test_vectors.md and from the rules named, never from the model;
a witness theorem shows a state and operands that meet all the hypotheses of the obligation it names. -/

namespace Sys2Proof.Tests

open Sys2Proof.Machine

/-! ### Well-formedness: an ill-formed term for each check -/

/-- MOVI R1, 99 does not assemble (spec/90_conflicts.md C2). -/
theorem test_movi_99_is_ill_formed : WellFormed (.movi 1 99) = false := by decide
theorem test_beqz_32_is_ill_formed : WellFormed (.beqz 1 32) = false := by decide
theorem test_andi_minus_33_is_ill_formed : WellFormed (.andi 1 0xDF) = false := by decide
theorem test_sal_64_is_ill_formed : WellFormed (.sal 1 64) = false := by decide
theorem test_sar_255_is_ill_formed : WellFormed (.sar 1 0xFF) = false := by decide
theorem test_ldr_64_is_ill_formed : WellFormed (.ldr 1 64) = false := by decide
theorem test_str_64_is_ill_formed : WellFormed (.str 1 64) = false := by decide
theorem test_immediate_bounds_are_well_formed :
    WellFormed (.movi 1 0xE0) = true ∧ WellFormed (.andi 1 31) = true ∧ WellFormed (.ldr 1 63) = true := by decide

/-! ### Decoding: one word for each constructor, its bits written out from R71 to R77 (95_test_vectors.md 2.1 and 3) -/

theorem test_decode_add : decode 0b0000_000001_000010#16 = .ok (.add 1 2) := by decide
theorem test_decode_sub : decode 0b0001_000100_000101#16 = .ok (.sub 4 5) := by decide
theorem test_decode_mul : decode 0b0010_000011_000011#16 = .ok (.mul 3 3) := by decide
theorem test_decode_movi : decode 0b0011_000011_111111#16 = .ok (.movi 3 0xFF) := by decide
theorem test_decode_beqz : decode 0b0100_000000_111011#16 = .ok (.beqz 0 0xFB) := by decide
theorem test_decode_andi : decode 0b0101_111111_100000#16 = .ok (.andi 63 0xE0) := by decide
theorem test_decode_eor : decode 0b0110_000010_000011#16 = .ok (.eor 2 3) := by decide
theorem test_decode_br : decode 0b0111_010100_010101#16 = .ok (.br 20 21) := by decide
theorem test_decode_sal : decode 0b1000_001000_111111#16 = .ok (.sal 8 63) := by decide
theorem test_decode_sar : decode 0b1001_111111_000000#16 = .ok (.sar 63 0) := by decide
theorem test_decode_ldr : decode 0b1010_001011_000111#16 = .ok (.ldr 11 7) := by decide
theorem test_decode_str : decode 0b1011_001010_000111#16 = .ok (.str 10 7) := by decide
theorem test_decode_reserved : decode 0xC123#16 = .error (.unknownOpcode 12) := by decide
theorem test_decode_sentinel : decode 0xFFFF#16 = .error .sentinel := by decide
theorem test_assemble : assemble .beqz 0 (-5) = some 0x403B ∧ assemble .movi 1 99 = none ∧ assemble .str 10 7 = some 0xB287 := by
  decide

/-! ### One cycle with a given instruction in Execute -/

/-- The core with the word `w` in the D→E slot, its decode-time operand values `a` and `b`, and SREG `sreg`. -/
def performing (w : Word) (a b sreg : Byte) : State :=
  { State.reset with pc := 1, sreg := sreg, de := some { decodeRecord w 1 State.reset with v1 := a, v2 := b } }

/-- The next state. -/
def stepped (s : State) : Option State :=
  match step s with
  | .next t => some t
  | .fault _ => none
  | .refused _ => none

/-- Register r1 and SREG after the cycle. -/
def result (w : Word) (a b sreg : Byte) : Option (Byte × Byte) :=
  (stepped (performing w a b sreg)).map (fun t => (readReg (r1Field w) t, t.sreg))

/-- The PC, the slots and the stall counters after the cycle. -/
def control (w : Word) (a b : Byte) : Option (Word × Bool × Bool × Fin 2 × Fin 3) :=
  (stepped (performing w a b 0)).map (fun t => (t.pc, t.fd.isNone, t.de.isNone, t.dstall, t.estall))

-- 95_test_vectors.md 2.2
theorem test_add_overflows : result 0x0042 0x64 0x64 0x00 = some (0xC8, 0x06) := by decide
theorem test_add_carries : result 0x0042 0x80 0x80 0x00 = some (0x00, 0x1B) := by decide
theorem test_sub_overflows : result 0x1042 0x80 0x01 0x00 = some (0x7F, 0x0A) := by decide
theorem test_sub_keeps_carry : result 0x1042 0x05 0x05 0x01 = some (0x00, 0x11) := by decide
theorem test_mul_uses_old_overflow : result 0x2042 0x0C 0xFD 0x02 = some (0xDC, 0x06) := by decide
theorem test_mul_truncates : result 0x2042 0x10 0x10 0x02 = some (0x00, 0x1A) := by decide
theorem test_eor_keeps_flags : result 0x6042 0x33 0x33 0x0B = some (0x00, 0x1B) := by decide
theorem test_movi_writes_no_flag : result 0x3060 0x00 0x00 0x1F = some (0xE0, 0x1F) := by decide
theorem test_andi_sign_extends : result 0x507F 0xF0 0x00 0x00 = some (0xF0, 0x04) := by decide
theorem test_sal_by_8 : result 0x8048 0x01 0x00 0x00 = some (0x00, 0x10) := by decide
theorem test_sal_to_sign : result 0x8041 0xC0 0x00 0x00 = some (0x80, 0x04) := by decide
theorem test_sar_by_63 : result 0x907F 0x80 0x00 0x00 = some (0xFF, 0x04) := by decide
theorem test_sar_rounds_down : result 0x9041 0x7F 0x00 0x00 = some (0x3F, 0x00) := by decide
theorem test_other_modes :
    getFlag .C (addFlags .signedLiteral 0xFF 0xFF 0xFE 0) = false ∧ mulFlags .keep 0xDC 0x00 = 0x04 := by decide

-- 95_test_vectors.md 2.3; the record's pc1 is 1
theorem test_beqz_taken : control 0x403F 0x00 0x00 = some (0, true, true, 1, 2) := by decide
theorem test_beqz_wraps : control 0x4020 0x00 0x00 = some (65505, true, true, 1, 2) := by decide
theorem test_beqz_not_taken : control 0x4042 0x80 0x00 = some (1, true, true, 0, 0) := by decide
theorem test_br_last_index : control 0x7042 0x03 0xFF = some (1023, true, true, 1, 2) := by decide
theorem test_br_out_of_range : control 0x7042 0x04 0x00 = some (1024, true, true, 1, 2) := by decide

-- 95_test_vectors.md 2.4
theorem test_str : (stepped (performing 0xB287 0x05 0x00 0x00)).map (fun t => (t.dmem, t.lat)) =
    some ([(7, 0x05)], { valid := true, value := 0x05, dest := none }) := by decide
theorem test_ldr : (stepped { performing 0xA2C7 0x00 0x00 0x00 with dmem := [(7, 0x05)] }).map
    (fun t => (readReg 11 t, t.lat)) = some (0x05, { valid := true, value := 0x05, dest := some 11 }) := by decide

/-! ### The hazard unit (95_test_vectors.md 2.5): (memstall, fwd1, fwd2) of an incoming word behind an executing one -/

def hazards (inc ex : Word) : Bool × Bool × Bool × Bool :=
  let r := hazardUnit (decodeRecord inc 1 State.reset) (some (decodeRecord ex 1 State.reset))
  (r.memstall, r.fwd1, r.fwd2, r.hazard)

theorem test_hazard_both : hazards 0x0041 0xA047 = (false, true, true, true) := by decide
theorem test_hazard_store_data : hazards 0xB047 0x0042 = (false, true, false, true) := by decide
theorem test_hazard_memstall : hazards 0xA047 0xB047 = (true, false, false, true) := by decide
theorem test_hazard_other_address : hazards 0xA088 0xB047 = (false, false, false, false) := by decide
theorem test_hazard_branch : hazards 0x7042 0x3089 = (false, false, false, false) := by decide
theorem test_hazard_reserved : hazards 0xC123 0x3101 = (false, true, false, true) := by decide
theorem test_hazard_store_is_no_producer : hazards 0x8042 0xB043 = (false, false, false, false) := by decide

/-! ### Faults and termination (95_test_vectors.md 2.6, 2.7) -/

theorem test_reserved_word_faults : (stepped (performing 0xC123 0x00 0x00 0x00)).map (fun t => (t.status, t.cycle)) =
    some (.faulted (.unknownOpcode 12 0xC123 0), 0) := by decide
theorem test_fetch_fault_commits_nothing :
    (stepped { performing 0x0042 0x01 0x01 0x00 with pc := 1024 }).map (fun t => (t.status, readReg 1 t, t.pc, t.cycle)) =
      some (.faulted (.outOfBounds .fetch 1024), 0x00, 1024, 0) := by decide
theorem test_third_sentinel_halts :
    (stepped { State.reset with stop := 2, cycle := 2 }).map (fun t => (t.status, t.stop, t.cycle, t.pc)) =
      some (.halted, 3, 3, 0) := by decide
theorem test_fetch_enqueues : (stepped { State.reset with imem := [(0, 0x304A)], stop := 1 }).map
    (fun t => (t.fd, t.pc, t.stop)) = some (some { word := 0x304A, pc1 := 1 }, 1, 0) := by decide
theorem test_last_slot_runs_off : (stepped { State.reset with pc := 1023, imem := [(1023, 0x3041)] }).map
    (fun t => (t.pc, t.status)) = some (1024, .running) := by decide

/-- A placed word is the next step's (assumption 9). -/
theorem test_placed_word_runs : (stepped (State.reset.withFetchWord 16 0x304A)).map (fun t => (readReg 1 t, t.pc)) =
    some (0x0A, 1) := by decide

/-- The trace of a completed cycle (R183, R188): the ADD of program P1's cycle 5. -/
theorem test_trace_of_an_add : (trace (performing 0x0042 0x0A 0x0C 0x00)).map
    (fun t => (t.fetch, t.execute, t.deltas.register, t.runComplete)) =
      some (.sentinel 1, .performed 0 0x0A 0x0C (some 0x16), some (1, 0x16), true) := by decide

/-- A fetch out of bounds while both stages would stall (95_test_vectors.md, program P6, cycle 7). -/
theorem test_trace_of_a_fetch_fault :
    (trace { State.reset with pc := 1024, stop := 2, dstall := 1, estall := 2 }).map
      (fun t => (t.fetch, t.decode, t.execute, t.deltas.pc)) = some (.outOfBounds 1024, .idle, .idle, 1024) := by decide
/-- A reserved word in Execute with a MOVI R2, 2 behind it (95_test_vectors.md, program P7, cycle 4). -/
theorem test_trace_of_a_reserved_word :
    (trace { performing 0xC123 0x00 0x00 0x00 with fd := some { word := 0x3082, pc1 := 3 } }).map
      (fun t => (t.fetch, t.decode, t.execute)) =
        some (.sentinel 1, .produced (decodeRecord 0x3082 3 State.reset), .idle) := by decide

/-! ### Witnesses: states and operands that meet the hypotheses of the obligations -/

/-- A step whose state and status are known meets `step s = .next t` with a status that is no fault's. -/
theorem next_of_stepped {s : State} {st : RunStatus} (h : (stepped s).map State.status = some st)
    (hst : ∀ e, st ≠ .faulted e) : ∃ t, step s = .next t ∧ t.status = st ∧ NotFaulted t := by
  unfold stepped at h
  cases hs : step s with
  | next t =>
    rw [hs] at h
    have ht : t.status = st := by simpa using h
    exact ⟨t, rfl, ht, fun e => ht ▸ hst e⟩
  | fault x => simp [hs] at h
  | refused x => simp [hs] at h

/-- An ADD in the D→E slot. -/
def addState : State := performing 0x0042 0x01 0x02 0x00
/-- A STR R1, 7 in the D→E slot and a LDR R2, 7 behind it. -/
def strLdrState : State := { performing 0xB047 0x05 0x00 0x00 with fd := some { word := 0xA087, pc1 := 2 }, pc := 2 }
/-- A MOVI R1 in the D→E slot and a BR R1, R2 behind it. -/
def moviBrState : State := { performing 0x3045 0x00 0x00 0x00 with fd := some { word := 0x7042, pc1 := 2 }, pc := 2 }
/-- A BEQZ R1, 2 in the D→E slot whose register holds 0x00. -/
def beqzState : State := performing 0x4042 0x00 0x00 0x00
/-- A LDR R2, 7 in the D→E slot that a STR of 0x05 to the same address has just left, and an ADD R2, R2 behind it. -/
def ldrState : State :=
  { State.reset with
    pc := 3
    fd := some { word := 0x0082, pc1 := 3 }
    dmem := [(7, 0x05)]
    lat := { valid := true, value := 0x05, dest := none }
    de := some { decodeRecord 0xA087 2 State.reset with memstall := true, hazard := true } }
/-- The two flush states, and a F→D record in the second. -/
def flush1State : State := { State.reset with dstall := 1, estall := 2 }
def flush2State : State := { State.reset with estall := 1, fd := some { word := 0x0042, pc1 := 1 } }
/-- A word at the PC and nothing in flight. -/
def fetchState : State := { State.reset with imem := [(0, 0x304A)] }
/-- States no run reaches, in which a queue overflows. -/
def fdFullState : State :=
  { State.reset with fd := some { word := 0x0042, pc1 := 1 }, dstall := 1, imem := [(0, 0x304A)] }
def deFullState : State := { addState with fd := some { word := 0x0042, pc1 := 1 }, estall := 1 }

theorem inv_beqzState : Inv beqzState := by
  refine ⟨by decide, by decide, by decide, by simp [beqzState, performing, State.reset, State.resetWith], ?_, .inl (by decide),
    by decide, by decide, by decide, by decide⟩
  rintro r hr
  obtain rfl : _ = r := Option.some.inj hr
  refine ⟨⟨by decide, by decide, by decide, by decide, by decide, by decide, by decide, by decide, by decide,
      by decide, by decide⟩,
    ⟨by decide, by decide⟩, ?_, by intro h; exact absurd h (by decide)⟩
  intro m hm
  obtain rfl : Mnemonic.beqz = m := Option.some.inj hm
  exact ⟨by decide, by decide⟩

theorem inv_ldrState : Inv ldrState := by
  refine ⟨by decide, by decide, by decide, ?_, ?_, .inl (by decide),
    by decide, by decide, by decide, by decide⟩
  · rintro r hr
    obtain rfl : _ = r := Option.some.inj hr
    decide
  rintro r hr
  obtain rfl : _ = r := Option.some.inj hr
  refine ⟨⟨by decide, by decide, by decide, by decide, by decide, by decide, by decide, by decide, by decide,
      by decide, by decide⟩,
    ⟨by decide, by decide⟩, ?_, ?_⟩
  · intro m hm
    obtain rfl : Mnemonic.ldr = m := Option.some.inj hm
    exact ⟨by decide, by decide⟩
  · intro _ a ha
    obtain rfl : (7 : Byte) = a := Option.some.inj ha
    decide

theorem inv_flush1State : Inv flush1State := by
  refine ⟨by decide, by decide, by decide, by simp [flush1State, State.reset, State.resetWith],
    by simp [flush1State, State.reset, State.resetWith], .inr (.inl (by decide)), by decide, by decide, by decide, by decide⟩

theorem inv_flush2State : Inv flush2State := by
  refine ⟨by decide, by decide, by decide, ?_, by simp [flush2State, State.reset, State.resetWith], .inr (.inr (by decide)),
    by decide, by decide, by decide, by decide⟩
  rintro r hr
  obtain rfl : _ = r := Option.some.inj hr
  decide

/-- A word with R1 in its r1 field, and for the R-format ones in r2 too, in the D→E slot. -/
def sameRegState (w : Word) : State := { performing w 0x00 0x00 0x00 with cycle := 2 }

theorem inv_sameRegState (w : Word) (hw : w ∈ [0x0041, 0x1041, 0x2041, 0x6041, 0x7041, (0xB047 : Word)]) : Inv (sameRegState w) := by
  simp only [List.mem_cons, List.not_mem_nil, or_false] at hw
  rcases hw with rfl | rfl | rfl | rfl | rfl | rfl
  all_goals
    refine ⟨by decide, by decide, by decide, by simp [sameRegState, performing, State.reset, State.resetWith], ?_,
      .inl (by decide), by decide, by decide, by decide, by decide⟩
    rintro r hr
    obtain rfl : _ = r := Option.some.inj hr
    refine ⟨⟨by decide, by decide, by decide, by decide, by decide, by decide, by decide, by decide, by decide,
      by decide, by decide⟩,
      ⟨by decide, by decide⟩, ?_, by intro h; exact absurd h (by decide)⟩
    intro m _
    exact ⟨fun _ => by decide, fun _ => by decide⟩

/-- Serves the r1 = r2 clauses of ADD, SUB, MUL and EOR. -/
theorem witness_SameRegisterTwice :
    (∃ r t, Inv (sameRegState 0x0041) ∧ (sameRegState 0x0041).de = some r ∧ decode r.word = .ok (.add 1 1) ∧
      exec (.add 1 1) (sameRegState 0x0041) = .next t) ∧
      (∃ r t, Inv (sameRegState 0x1041) ∧ (sameRegState 0x1041).de = some r ∧ decode r.word = .ok (.sub 1 1) ∧
        exec (.sub 1 1) (sameRegState 0x1041) = .next t) ∧
      (∃ r t, Inv (sameRegState 0x2041) ∧ (sameRegState 0x2041).de = some r ∧ decode r.word = .ok (.mul 1 1) ∧
        exec (.mul 1 1) (sameRegState 0x2041) = .next t) ∧
      ∃ r t, Inv (sameRegState 0x6041) ∧ (sameRegState 0x6041).de = some r ∧ decode r.word = .ok (.eor 1 1) ∧
        exec (.eor 1 1) (sameRegState 0x6041) = .next t :=
  ⟨⟨_, _, inv_sameRegState _ (by decide), rfl, by decide, rfl⟩, ⟨_, _, inv_sameRegState _ (by decide), rfl, by decide, rfl⟩,
    ⟨_, _, inv_sameRegState _ (by decide), rfl, by decide, rfl⟩, _, _, inv_sameRegState _ (by decide), rfl, by decide, rfl⟩

theorem witness_DecodeInvertsEncode : WellFormed (.beqz 63 0xE0) = true ∧ WellFormed (.str 0 63) = true := by decide

theorem witness_EveryWordWithADefinedOpcodeIsAnInstruction : ∃ m, opcodeMap m = opField 0xBFFF#16 := ⟨.str, by decide⟩

theorem witness_OpcodeTableRowsMatchExactlyOnce :
    (opField 0xBFFF#16).toNat ≤ 11 ∧ 12 ≤ (opField 0xC000#16).toNat ∧ decode 0xBFFF#16 = .ok (.str 63 63) := by decide

theorem witness_ReservedWordsAreRefusedByName : 0xFFFE#16 ≠ 0xFFFF#16 ∧ 12 ≤ (opField 0xFFFE#16).toNat := by decide

theorem witness_SignExtensionIdentity : (0x20#6).getLsbD 5 = true ∧ (0x1F#6).getLsbD 5 = false := by decide

theorem witness_AssemblerEncodesInRangeAndRefusesTheRest :
    (63 < 64 ∧ (if Mnemonic.movi.signExtends = true then (-32 : Int) ≤ -32 ∧ (-32 : Int) ≤ 31 else 0 ≤ -32 ∧ (-32 : Int) ≤ 63)) ∧
      ¬(1 < 64 ∧ (if Mnemonic.movi.signExtends = true then (-32 : Int) ≤ 99 ∧ (99 : Int) ≤ 31 else 0 ≤ 99 ∧ (99 : Int) ≤ 63)) := by
  decide

theorem witness_AddWritesSumFlagsAndLatch :
    ∃ t, (Instr.sub 1 2).mnemonic ≠ .add ∧ exec (.sub 1 2) State.reset = .next t := ⟨_, by decide, rfl⟩

theorem witness_EorWritesExclusiveOrFlagsAndLatch : operandA 1 addState ≠ operandB 2 addState ∧
    operandA 1 State.reset = operandB 2 State.reset := by decide

theorem witness_SalWritesLeftShiftFlagsAndLatch : 8 ≤ 8 := by decide

theorem witness_SarWritesRightShiftFlagsAndLatch : 7 ≤ 7 := by decide

theorem witness_BeqzBranchesWhenTheDecodedValueIsZero :
    decodedV1 1 beqzState = 0x00 ∧ decodedV1 1 addState ≠ 0x00 ∧ (∃ r, addState.de = some r) ∧
      State.status { State.reset with pc := 1024 } = .running ∧ 1024 ≤ (1024#16).toNat :=
  ⟨by decide, by decide, ⟨_, rfl⟩, by decide, by decide⟩

theorem witness_BrBranchesToTheDecodedRegisterPair :
    (∃ r t, Inv (sameRegState 0x7041) ∧ (sameRegState 0x7041).de = some r ∧ decode r.word = .ok (.br 1 1) ∧
      exec (.br 1 1) (sameRegState 0x7041) = .next t) ∧
      State.status { State.reset with pc := 1024 } = .running ∧ 1024 ≤ (1024#16).toNat :=
  ⟨⟨_, _, inv_sameRegState _ (by decide), rfl, by decide, rfl⟩, by decide, by decide⟩

theorem witness_StrStoresOneByte :
    Inv (sameRegState 0xB047) ∧ ∃ r, (sameRegState 0xB047).de = some r ∧ decode r.word = .ok (.str 1 7) :=
  ⟨inv_sameRegState _ (by decide), _, rfl, by decide⟩

theorem witness_LdrLoadsTheDataCell :
    ∃ t e f, Inv ldrState ∧ ldrState.status = .running ∧ ldrState.de = some e ∧ decode e.word = .ok (.ldr 2 7) ∧
      e.memstall = true ∧ ldrState.fd = some f ∧ decode f.word = .ok (.add 2 2) ∧ step ldrState = .next t ∧ NotFaulted t ∧
      readsR1 .add = true ∧ r1Field f.word = 2 ∧ readsR2 .add = true ∧ lowField f.word = 2 := by
  obtain ⟨t, ht, -, hn⟩ := next_of_stepped (s := ldrState) (st := .running) (by decide) (by simp)
  exact ⟨t, _, _, inv_ldrState, rfl, rfl, by decide, rfl, rfl, by decide, ht, hn, rfl, by decide, rfl, by decide⟩

theorem witness_OperandsAreForwardedFromTheLatch :
    Inv beqzState ∧ ∃ r, beqzState.de = some r ∧ decode r.word = .ok (.beqz 1 2) ∧ isBranch (Instr.beqz 1 2).mnemonic = true :=
  ⟨inv_beqzState, _, rfl, by decide, rfl⟩

theorem witness_StepRunsTheInstructionInTheDecodeToExecuteSlot :
    ∃ r f, addState.status = .running ∧ addState.estall = 0 ∧ addState.de = some r ∧ decode r.word = .ok (.add 1 2) ∧
      fetchStage addState = .ok f ∧ (f.record = none ∨ addState.fd = none ∨ addState.dstall = 0) :=
  ⟨_, { record := none, pc := 1, stop := 1 }, rfl, rfl, rfl, by decide, by decide, .inl rfl⟩

theorem witness_NextStepExecutesAPlacedWord : decodeTableWord 16 0xB287 = some (.str 10 7) := by decide

/-- The first part's clauses; the second's states are those of `witness_CommitSetsPcSlotsAndCounters`. -/
theorem witness_FetchReadsTheWordAtThePc :
    3 ≤ (State.stop { State.reset with stop := 3 }).val ∧
      (State.reset.stop.val < 3 ∧ 1024 ≤ (State.pc { State.reset with pc := 1024 }).toNat) ∧
      ((1023#16).toNat < 1024 ∧ wordAtPc { State.reset with pc := 1023 } = 0xFFFF) ∧
      (fetchState.pc.toNat < 1024 ∧ wordAtPc fetchState ≠ 0xFFFF) := by decide

theorem witness_CommitSetsPcSlotsAndCounters :
    (∃ f t, fetchStage beqzState = .ok f ∧ step beqzState = .next t ∧ NotFaulted t ∧ takenTarget beqzState = some 3) ∧
      (∃ f t, fetchStage addState = .ok f ∧ step addState = .next t ∧ NotFaulted t ∧ takenTarget addState = none) ∧
      (∃ f t, fetchStage fetchState = .ok f ∧ step fetchState = .next t ∧ NotFaulted t ∧ fetchState.stop.val < 3 ∧
        wordAtPc fetchState ≠ 0xFFFF) ∧
      ∃ f t, fetchStage { addState with stop := 3 } = .ok f ∧ step { addState with stop := 3 } = .next t ∧ NotFaulted t := by
  obtain ⟨t, ht, -, hn⟩ := next_of_stepped (s := beqzState) (st := .running) (by decide) (by simp)
  obtain ⟨u, hu, -, hm⟩ := next_of_stepped (s := addState) (st := .running) (by decide) (by simp)
  obtain ⟨v, hv, -, hk⟩ := next_of_stepped (s := fetchState) (st := .running) (by decide) (by simp)
  obtain ⟨w, hw, -, hj⟩ := next_of_stepped (s := { addState with stop := 3 }) (st := .halted) (by decide) (by simp)
  exact ⟨⟨{ record := none, pc := 1, stop := 1 }, t, by decide, ht, hn, by decide⟩,
    ⟨{ record := none, pc := 1, stop := 1 }, u, by decide, hu, hm, by decide⟩,
    ⟨{ record := some { word := 0x304A, pc1 := 1 }, pc := 1, stop := 0 }, v, by decide, hv, hk, by decide, by decide⟩,
    { record := none, pc := 1, stop := 3 }, w, by decide, hw, hj⟩

theorem witness_CoreHaltsWhenTheSentinelHasPropagated :
    (∃ t, State.status { State.reset with stop := 2 } = .running ∧ step { State.reset with stop := 2 } = .next t ∧
      NotFaulted t ∧ t.status = .halted) ∧
      ∃ t, addState.status = .running ∧ step addState = .next t ∧ NotFaulted t ∧ t.status ≠ .halted := by
  obtain ⟨t, ht, h, hn⟩ := next_of_stepped (s := { State.reset with stop := 2 }) (st := .halted) (by decide) (by simp)
  obtain ⟨u, hu, h', hm⟩ := next_of_stepped (s := addState) (st := .running) (by decide) (by simp)
  exact ⟨⟨t, rfl, ht, hn, h⟩, u, rfl, hu, hm, by simp [h']⟩

theorem witness_StoppedCoreTakesNoCycle : State.status { State.reset with status := .halted } ≠ .running := by decide

theorem witness_StalledOrIdleExecuteWritesNothing :
    (∃ t, flush1State.status = .running ∧ step flush1State = .next t ∧ NotFaulted t ∧ flush1State.estall ≠ 0 ∧
      decodeStage flush1State = none) ∧
      ∃ t, fetchState.status = .running ∧ step fetchState = .next t ∧ NotFaulted t ∧ fetchState.estall = 0 ∧
        fetchState.de = none := by
  obtain ⟨t, ht, -, hn⟩ := next_of_stepped (s := flush1State) (st := .running) (by decide) (by simp)
  obtain ⟨u, hu, -, hm⟩ := next_of_stepped (s := fetchState) (st := .running) (by decide) (by simp)
  exact ⟨⟨t, rfl, ht, hn, by decide, by decide⟩, u, rfl, hu, hm, rfl, rfl⟩

theorem witness_LatchHoldsTheMostRecentResult :
    (∃ t r, step addState = .next t ∧ NotFaulted t ∧ addState.de = some r ∧ executing addState = some (.add 1 2)) ∧
      (∃ t, step strLdrState = .next t ∧ NotFaulted t ∧ executing strLdrState = some (.str 1 7)) ∧
      (∃ t, step beqzState = .next t ∧ NotFaulted t ∧ executing beqzState = some (.beqz 1 2)) ∧
      ∃ t, step flush1State = .next t ∧ NotFaulted t ∧ executing flush1State = none := by
  obtain ⟨t, ht, -, hn⟩ := next_of_stepped (s := addState) (st := .running) (by decide) (by simp)
  obtain ⟨u, hu, -, hm⟩ := next_of_stepped (s := strLdrState) (st := .running) (by decide) (by simp)
  obtain ⟨v, hv, -, hk⟩ := next_of_stepped (s := beqzState) (st := .running) (by decide) (by simp)
  obtain ⟨w, hw, -, hj⟩ := next_of_stepped (s := flush1State) (st := .running) (by decide) (by simp)
  exact ⟨⟨t, _, ht, hn, rfl, by decide⟩, ⟨u, hu, hm, by decide⟩, ⟨v, hv, hk, by decide⟩, w, hw, hj, by decide⟩

/-- The ADD's cycle changes R1 and SREG's N flag. -/
theorem witness_OnlyTheExecutingProducerWritesItsRegister :
    ∃ t, step (performing 0x0042 0x7F 0x01 0x00) = .next t ∧ readReg 1 t ≠ readReg 1 (performing 0x0042 0x7F 0x01 0x00) := by
  refine ⟨(stepped (performing 0x0042 0x7F 0x01 0x00)).getD State.reset, by rfl, by decide⟩

theorem witness_OnlyTheListedInstructionsWriteEachFlag :
    ∃ t, step (performing 0x0042 0x7F 0x01 0x00) = .next t ∧
      getFlag .N t.sreg ≠ getFlag .N (performing 0x0042 0x7F 0x01 0x00).sreg := by
  refine ⟨(stepped (performing 0x0042 0x7F 0x01 0x00)).getD State.reset, by rfl, by decide⟩

/-- Serves the statements whose only hypothesis is a step that answers a state: `SregHoldsFiveFlagsAndThreeZeros`,
`InstructionMemoryNeverChanges`, `NoStepReadsTheStatusRegister`, `NoStepReadsTheCycleCounter`. -/
theorem witness_StepAnswersAState : ∃ t, step strLdrState = .next t ∧ NotFaulted t := by
  obtain ⟨t, ht, -, hn⟩ := next_of_stepped (s := strLdrState) (st := .running) (by decide) (by simp)
  exact ⟨t, ht, hn⟩

theorem witness_InstructionsReachOnlyDataAddressesBelow64 :
    ∃ t, step strLdrState = .next t ∧ ∀ a, a < 64 → Memory.read [(64, 0x07)] a = readByte strLdrState a := by
  obtain ⟨t, ht, -, -⟩ := next_of_stepped (s := strLdrState) (st := .running) (by decide) (by simp)
  exact ⟨t, ht, by decide⟩

theorem witness_RunCompleteMarksAnEmptySlotAfterADequeue :
    ∃ t, addState.status = .running ∧ step addState = .next t ∧ NotFaulted t ∧ addState.estall = 0 ∧ addState.de ≠ none := by
  obtain ⟨t, ht, -, hn⟩ := next_of_stepped (s := addState) (st := .running) (by decide) (by simp)
  exact ⟨t, rfl, ht, hn, rfl, by decide⟩

theorem witness_HazardUnitSetsTheFlagsOfItsFourRules :
    (decodeRecord 0x4042 1 State.reset).op = 4 ∧ (decodeRecord 0x7042 1 State.reset).op = 7 ∧
      (decodeRecord 0x0042 1 State.reset).op ≠ 4 ∧ (decodeRecord 0x0042 1 State.reset).op ≠ 7 := by decide

theorem witness_DecoderBuildsTheRecordOfAWord :
    (decodeRecord 0x0042 1 State.reset).fmt = .r ∧ (decodeRecord 0x5FE0 1 State.reset).fmt = .i ∧
      (decodeRecord 0x5FE0 1 State.reset).op ∈ [3, 4, (5 : Opcode)] ∧
      (decodeRecord 0xC123 1 State.reset).fmt = .i ∧ (decodeRecord 0xC123 1 State.reset).op ∉ [3, 4, (5 : Opcode)] ∧
      decode 0x0042 = .ok (.add 1 2) ∧ decode 0x5FE0 = .ok (.andi 63 0xE0) := by decide

theorem witness_FetchOutsideInstructionMemoryFaults :
    (State.status { State.reset with pc := 1024 } = .running ∧ 1024 ≤ (1024#16).toNat) ∧
      ∃ s t : State, step s = .next t ∧ s.pc.toNat < 1024 ∧ 1024 ≤ t.pc.toNat :=
  ⟨by decide, { State.reset with pc := 1023, imem := [(1023, 0x3041)] },
    (stepped { State.reset with pc := 1023, imem := [(1023, 0x3041)] }).getD State.reset, by rfl, by decide, by decide⟩

theorem witness_ReservedOpcodeFaultsAtExecute :
    ∃ r, (performing 0xC000 0 0 0).status = .running ∧ (performing 0xC000 0 0 0).pc.toNat < 1024 ∧
      (performing 0xC000 0 0 0).de = some r ∧ r.op = opField r.word ∧ (performing 0xC000 0 0 0).estall = 0 ∧ 12 ≤ r.op.toNat ∧
      step (performing 0xC000 0 0 0) = .next (raiseFatal (.unknownOpcode 12 0xC000 0) (performing 0xC000 0 0 0)) :=
  ⟨_, rfl, by decide, rfl, by decide, rfl, by decide, by rfl⟩

/-- One state for each clause of the order: a bad PC (with a reserved word in Execute too), a reserved word, a full F→D slot, a
full D→E slot, and none of them. -/
theorem witness_FatalErrorsAreTakenInStageOrder :
    (1024 ≤ (State.pc { performing 0xC000 0 0 0 with pc := 1024 }).toNat) ∧
      (∃ r, (performing 0xC000 0 0 0).estall = 0 ∧ (performing 0xC000 0 0 0).de = some r ∧ 12 ≤ (opField r.word).toNat ∧
        (performing 0xC000 0 0 0).pc.toNat < 1024) ∧
      (fdFullState.pc.toNat < 1024 ∧ fdFullState.de = none ∧ fdFullState.stop.val < 3 ∧ wordAtPc fdFullState ≠ 0xFFFF ∧
        fdFullState.fd ≠ none ∧ fdFullState.dstall ≠ 0) ∧
      (deFullState.pc.toNat < 1024 ∧ wordAtPc deFullState = 0xFFFF ∧ deFullState.dstall = 0 ∧ deFullState.fd ≠ none ∧
        deFullState.de ≠ none ∧ deFullState.estall ≠ 0) ∧
      (addState.pc.toNat < 1024 ∧ wordAtPc addState = 0xFFFF ∧ addState.estall = 0) :=
  ⟨by decide, ⟨_, rfl, rfl, by decide, by decide⟩, by decide, by decide, by decide⟩

theorem witness_FatalErrorCommitsNothing :
    ∃ t, State.status { addState with pc := 1024 } = .running ∧ step { addState with pc := 1024 } = .next t ∧
      t.status = .faulted (.outOfBounds .fetch 1024) := ⟨_, rfl, by rfl, rfl⟩

theorem witness_NoInstructionRaisesOutOfBounds :
    ∃ t, addState.status = .running ∧ step addState = .next t ∧ 64 ≤ 64 ∧ 2048 ≤ 2048 := by
  obtain ⟨t, ht, -, -⟩ := next_of_stepped (s := addState) (st := .running) (by decide) (by simp)
  exact ⟨t, rfl, ht, by decide, by decide⟩

theorem witness_StorageOperationsFailExactlyOutsideTheirBound :
    (63#6).toNat = 63 ∧ 64 ≤ 64 ∧ 2047 < 2048 ∧ 2048 ≤ 2048 ∧ 1023 < 1024 ∧ 1024 ≤ 1024 ∧
      ∃ s t : State, s.status = .running ∧ step s = .next t ∧ t.status = .faulted (.outOfBounds .fetch 1024) :=
  ⟨by decide, by decide, by decide, by decide, by decide, by decide, { addState with pc := 1024 }, _, rfl, by rfl, rfl⟩

theorem witness_LoaderFillsUnusedSlotsWithTheSentinel :
    (List.replicate 1024 (0x3041 : Word)).length ≤ 1024 ∧ 1024 < (List.replicate 1025 (0x3041 : Word)).length := by
  simp only [List.length_replicate]; decide

theorem witness_InvariantHoldsForEveryLoadedProgram :
    ∃ s, State.boot [0x304A, 0xFFFF] (Vector.replicate 64 0x01) [(7, 0x05), (2047, 0x09)] = some s := ⟨_, rfl⟩

theorem witness_StepKeepsTheInvariant : ∃ t, Inv ldrState ∧ step ldrState = .next t := by
  obtain ⟨t, ht, -, -⟩ := next_of_stepped (s := ldrState) (st := .running) (by decide) (by simp)
  exact ⟨t, inv_ldrState, ht⟩

theorem witness_QueuesNeverOverflow : ∃ t, Inv flush2State ∧ flush2State.status = .running ∧ step flush2State = .next t := by
  obtain ⟨t, ht, -, -⟩ := next_of_stepped (s := flush2State) (st := .running) (by decide) (by simp)
  exact ⟨t, inv_flush2State, rfl, ht⟩

theorem witness_ForwardingMakesOperandsCurrent :
    Inv ldrState ∧ ∃ r, ldrState.de = some r ∧ decode r.word = .ok (.ldr 2 7) ∧ isBranch (Instr.ldr 2 7).mnemonic = false :=
  ⟨inv_ldrState, _, rfl, by decide, rfl⟩

/-- One state for each clause: RUN with a taken branch, RUN without one, FLUSH1, and FLUSH2 with a F→D record. -/
theorem witness_FlushFsmTakesThreeStates :
    (∃ t, Inv beqzState ∧ step beqzState = .next t ∧ NotFaulted t ∧ beqzState.dstall = 0 ∧ beqzState.estall = 0 ∧
      (takenTarget beqzState).isSome) ∧
      (∃ t, Inv ldrState ∧ step ldrState = .next t ∧ NotFaulted t ∧ ldrState.dstall = 0 ∧ ldrState.estall = 0 ∧
        takenTarget ldrState = none) ∧
      (∃ t, Inv flush1State ∧ step flush1State = .next t ∧ NotFaulted t ∧ flush1State.dstall = 1 ∧ flush1State.estall = 2) ∧
      ∃ t r, Inv flush2State ∧ step flush2State = .next t ∧ NotFaulted t ∧ flush2State.dstall = 0 ∧ flush2State.estall = 1 ∧
        flush2State.fd = some r := by
  obtain ⟨t, ht, -, hn⟩ := next_of_stepped (s := beqzState) (st := .running) (by decide) (by simp)
  obtain ⟨u, hu, -, hm⟩ := next_of_stepped (s := ldrState) (st := .running) (by decide) (by simp)
  obtain ⟨v, hv, -, hk⟩ := next_of_stepped (s := flush1State) (st := .running) (by decide) (by simp)
  obtain ⟨w, hw, -, hj⟩ := next_of_stepped (s := flush2State) (st := .running) (by decide) (by simp)
  exact ⟨⟨t, inv_beqzState, ht, hn, rfl, rfl, by decide⟩, ⟨u, inv_ldrState, hu, hm, rfl, rfl, by decide⟩,
    ⟨v, inv_flush1State, hv, hk, rfl, rfl⟩, w, _, inv_flush2State, hw, hj, rfl, rfl, rfl⟩

theorem witness_FetchedWordReachesExecuteInTwoCycles :
    ∃ t u, fetchState.status = .running ∧ fetchState.stop.val < 3 ∧ wordAtPc fetchState ≠ 0xFFFF ∧ step fetchState = .next t ∧
      t.status = .running ∧ takenTarget fetchState = none ∧ step t = .next u ∧ NotFaulted u ∧ takenTarget t = none := by
  refine ⟨(stepped fetchState).getD State.reset, ?_⟩
  obtain ⟨u, hu, -, hn⟩ :=
    next_of_stepped (s := (stepped fetchState).getD State.reset) (st := .running) (by decide) (by simp)
  exact ⟨u, rfl, by decide, by decide, by rfl, by decide, by decide, hu, hn, by decide⟩

theorem witness_BranchReadsRegistersBeforeItsPredecessorsWrite :
    ∃ t f, moviBrState.status = .running ∧ moviBrState.dstall = 0 ∧ moviBrState.fd = some f ∧ decode f.word = .ok (.br 1 2) ∧
      isBranch (Instr.br 1 2).mnemonic = true ∧ step moviBrState = .next t ∧ NotFaulted t ∧ takenTarget moviBrState = none := by
  obtain ⟨t, ht, -, hn⟩ := next_of_stepped (s := moviBrState) (st := .running) (by decide) (by simp)
  exact ⟨t, _, rfl, rfl, rfl, by decide, rfl, ht, hn, by decide⟩

theorem witness_LoadRightAfterStoreReadsTheStoredByte :
    ∃ t u e f, strLdrState.status = .running ∧ strLdrState.dstall = 0 ∧ strLdrState.estall = 0 ∧ strLdrState.de = some e ∧
      decode e.word = .ok (.str 1 7) ∧ strLdrState.fd = some f ∧ decode f.word = .ok (.ldr 2 7) ∧
      step strLdrState = .next t ∧ t.status = .running ∧ step t = .next u ∧ NotFaulted u := by
  refine ⟨(stepped strLdrState).getD State.reset, ?_⟩
  obtain ⟨u, hu, -, hn⟩ :=
    next_of_stepped (s := (stepped strLdrState).getD State.reset) (st := .running) (by decide) (by simp)
  exact ⟨u, _, _, rfl, rfl, rfl, rfl, by decide, rfl, by decide, by rfl, by decide, hu, hn⟩

end Sys2Proof.Tests
end

section
/-! PROOFS. What a step performs: the register file, SREG, the latch and the memories change only by the instruction in
Execute (spec/45_pipeline.md R158 to R161). -/

namespace Sys2Proof.Machine

/-! ### What an instruction does, by the fields of its word -/

/-- An instruction that writes r1 writes one result there, with some SREG, and nothing else (R22, R161). -/
theorem exec_instrOf_of_writesR1 {m : Mnemonic} (h : writesR1 m = true) (r1 : RegIdx) (low : BitVec 6) (s : State) :
    ∃ v sreg, exec (instrOf m r1 low) s = .next (writeResult r1 v (setSreg sreg s)) := by
  cases m with
  | add => exact ⟨_, _, exec_add r1 low s⟩
  | sub => exact ⟨_, _, exec_sub r1 low s⟩
  | mul => exact ⟨_, _, exec_mul r1 low s⟩
  | movi => exact ⟨_, s.sreg, exec_movi r1 (sextImm low) s⟩
  | andi => exact ⟨_, _, exec_andi r1 (sextImm low) s⟩
  | eor => exact ⟨_, _, exec_eor r1 low s⟩
  | sal => exact ⟨_, _, exec_sal r1 (zextImm low) s⟩
  | sar => exact ⟨_, _, exec_sar r1 (zextImm low) s⟩
  | ldr => exact ⟨_, s.sreg, exec_ldr r1 (zextImm low) s⟩
  | beqz | br | str => cases h

/-- An instruction that does not write r1 writes no register. -/
theorem exec_x_of_not_writesR1 {i : Instr} {s e : State} (h : writesR1 i.mnemonic = false) (he : exec i s = .next e) :
    e.x = s.x := by
  rcases exec_cases i s with ⟨r1, v, f, hw, hx, -⟩ | ⟨r1, imm, -, hx⟩ | ⟨target, -, hx⟩ | ⟨-, -, hx⟩
  · simp [h] at hw
  all_goals
    obtain rfl : _ = e := by simpa [hx] using he
    rfl

/-- R22's list, as the statement about it writes it. -/
theorem mem_producers_of_writesR1 {m : Mnemonic} (h : writesR1 m = true) :
    m ∈ [Mnemonic.add, .sub, .mul, .movi, .andi, .eor, .sal, .sar, .ldr] := by
  revert h; cases m <;> decide

/-- A register an instruction changes is the r1 of an instruction that writes one (R22). -/
theorem exec_changed_reg {w : Word} {i : Instr} {s e : State} (hd : decode w = .ok i) (he : exec i s = .next e)
    {q : RegIdx} (hq : readReg q e ≠ readReg q s) : writesR1 i.mnemonic = true ∧ q = r1Field w := by
  cases hw : writesR1 i.mnemonic with
  | false => exact absurd (readReg_congr (exec_x_of_not_writesR1 hw he) q) hq
  | true =>
    obtain ⟨m, -, rfl⟩ := (decode_eq_ok w i).mp hd
    obtain ⟨v, sreg, hx⟩ := exec_instrOf_of_writesR1 (by simpa using hw) (r1Field w) (lowField w) s
    obtain rfl : _ = e := by simpa [hx] using he
    refine ⟨rfl, by_contra fun hne => hq ?_⟩
    simp [readReg_writeResult, hne]

/-- No instruction writes SREG's reserved bits (R29). -/
theorem exec_reservedBits {i : Instr} {s e : State} (he : exec i s = .next e) :
    reservedBits e.sreg = reservedBits s.sreg := by
  rcases exec_cases i s with ⟨r1, v, f, -, hx, hf⟩ | ⟨r1, imm, -, hx⟩ | ⟨target, -, hx⟩ | ⟨-, -, hx⟩
  · obtain rfl : _ = e := by simpa [hx] using he
    exact hf
  all_goals
    obtain rfl : _ = e := by simpa [hx] using he
    rfl

/-! ### The flags an instruction leaves -/

/-- The SREG an instruction leaves: what its rule of spec/40_alu.md writes, or SREG as it was. -/
def sregAfter (i : Instr) (s : State) : Byte :=
  match i with
  | .add r1 r2 =>
    addFlags Config.carryMode (operandA r1 s) (operandB r2 s) (trunc8 (uval (operandA r1 s) + uval (operandB r2 s))) s.sreg
  | .sub r1 r2 =>
    subFlags (operandA r1 s) (operandB r2 s) (trunc8 (sval (operandA r1 s) - sval (operandB r2 s))) s.sreg
  | .mul r1 r2 => mulFlags Config.mulSignMode (trunc8 (sval (operandA r1 s) * sval (operandB r2 s))) s.sreg
  | .eor r1 r2 => logicFlags (operandA r1 s ^^^ operandB r2 s) s.sreg
  | .andi r1 imm => logicFlags (operandA r1 s &&& imm) s.sreg
  | .sal r1 imm => logicFlags (shiftLeft (operandA r1 s) (uval imm)) s.sreg
  | .sar r1 imm => logicFlags (shiftRight (operandA r1 s) (uval imm)) s.sreg
  | .movi _ _ | .beqz _ _ | .br _ _ | .ldr _ _ | .str _ _ => s.sreg

/-- Every instruction completes, and leaves `sregAfter`. -/
theorem exec_sreg (i : Instr) (s : State) : ∃ e, exec i s = .next e ∧ e.sreg = sregAfter i s := by
  cases i with
  | add r1 r2 => exact ⟨_, exec_add r1 r2 s, rfl⟩
  | sub r1 r2 => exact ⟨_, exec_sub r1 r2 s, rfl⟩
  | mul r1 r2 => exact ⟨_, exec_mul r1 r2 s, rfl⟩
  | movi r1 imm => exact ⟨_, exec_movi r1 imm s, rfl⟩
  | beqz r1 imm => exact ⟨_, exec_beqz r1 imm s, by split <;> rfl⟩
  | andi r1 imm => exact ⟨_, exec_andi r1 imm s, rfl⟩
  | eor r1 r2 => exact ⟨_, exec_eor r1 r2 s, rfl⟩
  | br r1 r2 => exact ⟨_, exec_br r1 r2 s, rfl⟩
  | sal r1 imm => exact ⟨_, exec_sal r1 imm s, rfl⟩
  | sar r1 imm => exact ⟨_, exec_sar r1 imm s, rfl⟩
  | ldr r1 imm => exact ⟨_, exec_ldr r1 imm s, rfl⟩
  | str r1 imm => exact ⟨_, exec_str r1 imm s, rfl⟩

theorem sreg_of_exec {i : Instr} {s e : State} (he : exec i s = .next e) : e.sreg = sregAfter i s := by
  obtain ⟨e', hx, hs⟩ := exec_sreg i s
  obtain rfl : e' = e := by simpa [hx] using he
  exact hs

/-- R30's table, as the statement about it writes it. -/
theorem mem_flagsWritten_iff (m : Mnemonic) (f : Flag) :
    f ∈ flagsWritten m ↔ m = .add ∨ (m = .sub ∧ f ≠ .C) ∨ (m = .mul ∧ f ≠ .C ∧ f ≠ .V) ∨
      (m ∈ [Mnemonic.eor, .andi, .sal, .sar] ∧ (f = .N ∨ f = .Z)) := by
  cases m <;> cases f <;> decide

/-- An instruction keeps every flag R30 does not list for it. -/
theorem getFlag_sregAfter_of_not_mem {i : Instr} {f : Flag} (h : f ∉ flagsWritten i.mnemonic) (s : State) :
    getFlag f (sregAfter i s) = getFlag f s.sreg := by
  cases i with
  | add => cases f <;> simp [Instr.mnemonic, flagsWritten] at h
  | sub => cases f <;> simp_all [Instr.mnemonic, flagsWritten, sregAfter, subFlags, getFlag_signedFlags]
  | mul =>
    cases f <;>
      simp_all [Instr.mnemonic, flagsWritten, sregAfter, mulFlags, Config.mulSignMode, getFlag_setFlag, getFlag_logicFlags]
  | andi | eor | sal | sar => cases f <;> simp_all [Instr.mnemonic, flagsWritten, sregAfter, getFlag_logicFlags]
  | movi | beqz | br | ldr | str => rfl

/-- The value an instruction gives a flag of its list does not depend on that flag's old value. -/
theorem getFlag_sregAfter_setFlag {i : Instr} {f : Flag} (h : f ∈ flagsWritten i.mnemonic) (b : Bool) (s : State) :
    getFlag f (sregAfter i (setSreg (setFlag f b s.sreg) s)) = getFlag f (sregAfter i s) := by
  cases i with
  | add => cases f <;> simp [sregAfter, addFlags, getFlag_signedFlags, getFlag_setFlag] <;> rfl
  | sub => cases f <;> simp_all [Instr.mnemonic, flagsWritten, sregAfter, subFlags, getFlag_signedFlags] <;> rfl
  | mul =>
    cases f <;>
      simp_all [Instr.mnemonic, flagsWritten, sregAfter, mulFlags, Config.mulSignMode, getFlag_setFlag, getFlag_logicFlags]
        <;> rfl
  | andi | eor | sal | sar =>
    cases f <;> simp_all [Instr.mnemonic, flagsWritten, sregAfter, getFlag_logicFlags] <;> rfl
  | movi | beqz | br | ldr | str => cases h

/-- Every instruction changes each flag of its list on some state: where the flag held the opposite of what the
instruction gives it on the reset state. -/
theorem exists_exec_changes_flag {i : Instr} {f : Flag} (h : f ∈ flagsWritten i.mnemonic) :
    ∃ s t, exec i s = .next t ∧ getFlag f t.sreg ≠ getFlag f s.sreg := by
  obtain ⟨t, he, ht⟩ :=
    exec_sreg i (setSreg (setFlag f (!getFlag f (sregAfter i State.reset)) State.reset.sreg) State.reset)
  refine ⟨_, t, he, ?_⟩
  rw [ht, getFlag_sregAfter_setFlag h]
  simp [getFlag_setFlag]

/-- An instruction changes no flag outside its list. -/
theorem mem_flagsWritten_of_exec_changes {i : Instr} {f : Flag} {s e : State} (he : exec i s = .next e)
    (hf : getFlag f e.sreg ≠ getFlag f s.sreg) : f ∈ flagsWritten i.mnemonic := by
  by_contra h
  exact hf (by rw [sreg_of_exec he, getFlag_sregAfter_of_not_mem h])

end Sys2Proof.Machine
end

section
/-! PROOFS. The cycle around Execute: what it performs, what a step leaves in the registers, SREG, the latch and the
memories, and that it reads neither SREG nor the cycle counter. -/

namespace Sys2Proof.Machine

/-! ### What Execute performs -/

theorem executing_eq_some {s : State} {i : Instr} :
    executing s = some i ↔ ∃ r, s.estall = 0 ∧ s.de = some r ∧ decode r.word = .ok i := by
  unfold executing
  by_cases h : s.estall = 0
  · cases hde : s.de with
    | none => simp
    | some r => cases hd : decode r.word <;> simp [h, hd]
  · simp [h]

/-- Without a fatal error Execute performs an instruction, or idles, or counts its stall down (R158 to R160). -/
theorem executeStage_performs {s e : State} (he : executeStage s = .next e) (hr : e.status = .running) :
    (∃ i, executing s = some i ∧ exec i s = .next e) ∨ (s.estall = 0 ∧ s.de = none ∧ e = s) ∨
      (s.estall ≠ 0 ∧ e = { s with estall := s.estall - 1 }) := by
  rcases executeStage_cases s with ⟨r, -, -, -, hx⟩ | ⟨r, i, e', h0, hde, hd, hi, -, hx⟩ | ⟨h0, hde, hx⟩ | ⟨h0, hx⟩
  · obtain rfl : _ = e := by simpa [hx] using he
    simp at hr
  · obtain rfl : e' = e := by simpa [hx] using he
    exact .inl ⟨i, executing_eq_some.mpr ⟨r, h0, hde, hd⟩, hi⟩
  · exact .inr (.inl ⟨h0, hde, by simpa [hx] using he.symm⟩)
  · exact .inr (.inr ⟨h0, by simpa [hx] using he.symm⟩)

/-! ### The storage a step leaves -/

/-- The registers, SREG, the latch and the memories of `t` are those of `s`. -/
structure SameStorage (s t : State) : Prop where
  x : t.x = s.x
  sreg : t.sreg = s.sreg
  lat : t.lat = s.lat
  imem : t.imem = s.imem
  dmem : t.dmem = s.dmem

theorem SameStorage.refl (s : State) : SameStorage s s := ⟨rfl, rfl, rfl, rfl, rfl⟩

/-- The commit leaves the storage as Execute left it. -/
theorem sameStorage_commit (s : State) (f : FetchResult) (e : State) : SameStorage e (commit s f e) :=
  ⟨commit_x s f e, commit_sreg s f e, commit_lat s f e, commit_imem s f e, commit_dmem s f e⟩

/-- A step leaves the storage as it was, or as the instruction in Execute left it. -/
theorem step_storage {s t : State} (h : step s = .next t) :
    SameStorage s t ∨
      ∃ i e, s.status = .running ∧ executing s = some i ∧ exec i s = .next e ∧ SameStorage e t := by
  by_cases hs : s.status = .running
  · rcases step_running_cases hs h with ⟨x, rfl⟩ | ⟨f, e, -, he, hr, -, -, rfl⟩
    · exact .inl ⟨rfl, rfl, rfl, rfl, rfl⟩
    · have hc := sameStorage_commit s f e
      rcases executeStage_performs he hr with ⟨i, hi, hx⟩ | ⟨-, -, rfl⟩ | ⟨-, rfl⟩
      · exact .inr ⟨i, e, hs, hi, hx, hc⟩
      · exact .inl hc
      · exact .inl ⟨hc.x, hc.sreg, hc.lat, hc.imem, hc.dmem⟩
  · exact .inl (step_not_running hs h ▸ SameStorage.refl s)

/-- The reserved bits of SREG are kept by every step. -/
theorem step_reservedBits {s t : State} (h : step s = .next t) : reservedBits t.sreg = reservedBits s.sreg := by
  rcases step_storage h with hsame | ⟨i, e, -, -, he, hsame⟩
  · rw [hsame.sreg]
  · rw [hsame.sreg, exec_reservedBits he]

/-! ### The cycle as an equation -/

/-- The fatal error of a cycle in which Fetch raised none: Execute's, or an overflow of a queue, in R205's order. -/
def cycleFault (s : State) (f : FetchResult) (e : State) : Option FatalError :=
  match e.status with
  | .faulted err => some err
  | _ =>
    if fdOverflows s f then some (.queueOverflow .fetchToDecode)
    else if deOverflows s then some (.queueOverflow .decodeToExecute)
    else none

/-- A fetch out of bounds ends the cycle at once (R185, R200). -/
theorem cycleStep_of_fetchError {s : State} {err : FatalError} (hf : fetchStage s = .error err) :
    cycleStep s = .next (raiseFatal err s) := by
  simp only [cycleStep, hf]

/-- A cycle commits its stages' work, or takes its fatal error on the state it began with (R185, R204). -/
theorem cycleStep_of_stages {s e : State} {f : FetchResult} (hf : fetchStage s = .ok f) (he : executeStage s = .next e) :
    cycleStep s = .next ((cycleFault s f e).elim (commit s f e) (raiseFatal · s)) := by
  simp only [cycleStep, hf, he, cycleFault]
  cases e.status with
  | faulted err => rfl
  | running | halted =>
    by_cases h1 : fdOverflows s f = true
    · simp [h1]
    · by_cases h2 : deOverflows s = true
      · simp [h1, h2]
      · simp [h1, h2]

/-! ### What a step does not read -/

/-- The state with other values in the two fields no instruction reads: SREG and the cycle counter (R31, R41). -/
def withUnread (v : Byte) (n : Nat) (s : State) : State := { s with sreg := v, cycle := n }

/-- Every instruction completes whatever those two fields hold, and what it does to the other fields does not depend on
them. -/
theorem exec_withUnread (i : Instr) (s : State) (v : Byte) (n : Nat) :
    ∃ e, exec i s = .next e ∧
      exec i (withUnread v n s) = .next (withUnread (sregAfter i (withUnread v n s)) n e) := by
  cases i with
  | add | sub | mul | movi | andi | eor | br | sal | sar => exact ⟨_, rfl, rfl⟩
  | beqz r1 imm =>
    by_cases h : decodedV1 r1 s = 0x00
    · have h' : decodedV1 r1 (withUnread v n s) = 0x00 := h
      exact ⟨_, by rw [exec_beqz, if_pos h], by rw [exec_beqz, if_pos h']; rfl⟩
    · have h' : decodedV1 r1 (withUnread v n s) ≠ 0x00 := h
      exact ⟨_, by rw [exec_beqz, if_neg h], by rw [exec_beqz, if_neg h']; rfl⟩
  | ldr r1 imm => exact ⟨_, exec_ldr r1 imm s, exec_ldr r1 imm _⟩
  | str r1 imm => exact ⟨_, exec_str r1 imm s, exec_str r1 imm _⟩

/-- The SREG an instruction leaves does not depend on the cycle counter. -/
theorem sregAfter_withUnread (i : Instr) (s : State) (n : Nat) :
    sregAfter i (withUnread s.sreg n s) = sregAfter i s := by
  cases i <;> rfl

theorem executeStage_withUnread (s : State) (v : Byte) (n : Nat) :
    ∃ e v', executeStage s = .next e ∧ executeStage (withUnread v n s) = .next (withUnread v' n e) ∧
      (v = s.sreg → v' = e.sreg) := by
  by_cases h : s.estall = 0
  · cases hde : s.de with
    | none => exact ⟨s, v, by simp [executeStage, h, hde], by simp [executeStage, withUnread, h, hde], id⟩
    | some r =>
      cases hd : decode r.word with
      | error x =>
        exact ⟨raiseFatal (unknownOpcodeOf r) s, v, by simp [executeStage, h, hde, hd],
          by simp [executeStage, withUnread, h, hde, hd, raiseFatal], id⟩
      | ok i =>
        obtain ⟨e, hx, hx'⟩ := exec_withUnread i s v n
        refine ⟨e, sregAfter i (withUnread v n s), by simp [executeStage, h, hde, hd, hx], ?_, ?_⟩
        · rw [← hx']
          simp [executeStage, withUnread, h, hde, hd]
        · rintro rfl
          rw [sregAfter_withUnread, sreg_of_exec hx]
  · exact ⟨{ s with estall := s.estall - 1 }, v, by simp [executeStage, h], by simp [executeStage, withUnread, h], id⟩

/-- The commit takes the two fields along, and counts the cycle. -/
theorem commit_withUnread (s e : State) (f : FetchResult) (v v' : Byte) (n : Nat) :
    commit (withUnread v n s) f (withUnread v' n e) = withUnread v' (n + 1) (commit s f e) := by
  have hb : branchTaken (withUnread v n s) (withUnread v' n e) = branchTaken s e := rfl
  simp only [commit, commitStages, hb]
  split <;> rfl

/-- A whole cycle reads neither SREG nor the cycle counter (R31, R41); and neither of the two reads the other. -/
theorem cycleStep_withUnread {s t : State} (h : cycleStep s = .next t) (v : Byte) (n : Nat) :
    ∃ v' n', cycleStep (withUnread v n s) = .next (withUnread v' n' t) ∧ (v = s.sreg → v' = t.sreg) ∧
      (n = s.cycle → n' = t.cycle) := by
  have hfetch : fetchStage (withUnread v n s) = fetchStage s := rfl
  cases hf : fetchStage s with
  | error err =>
    obtain rfl : raiseFatal err s = t := by simpa [cycleStep_of_fetchError hf] using h
    exact ⟨v, n, cycleStep_of_fetchError (hfetch.trans hf), id, id⟩
  | ok f =>
    obtain ⟨e, v', he, he', hv⟩ := executeStage_withUnread s v n
    have hfault : cycleFault (withUnread v n s) f (withUnread v' n e) = cycleFault s f e := rfl
    rw [cycleStep_of_stages hf he] at h
    rw [cycleStep_of_stages (hfetch.trans hf) he', hfault, commit_withUnread]
    cases hc : cycleFault s f e with
    | none =>
      obtain rfl : commit s f e = t := by simpa [hc] using h
      exact ⟨v', n + 1, rfl, fun hs => by rw [hv hs, commit_sreg], fun hn => by rw [hn, commit_cycle]⟩
    | some err =>
      obtain rfl : raiseFatal err s = t := by simpa [hc] using h
      exact ⟨v, n, rfl, id, id⟩

/-- No step reads SREG or the cycle counter. -/
theorem step_withUnread {s t : State} (h : step s = .next t) (v : Byte) (n : Nat) :
    ∃ v' n', step (withUnread v n s) = .next (withUnread v' n' t) ∧ (v = s.sreg → v' = t.sreg) ∧
      (n = s.cycle → n' = t.cycle) := by
  have hst : (withUnread v n s).status = s.status := rfl
  cases hs : s.status with
  | running =>
    have edge : step (withUnread v n s) = cycleStep (withUnread v n s) := by simp only [step, clockEdge, hst, hs]
    rw [edge]
    exact cycleStep_withUnread (by simpa only [step, clockEdge, hs] using h) v n
  | halted | faulted =>
    obtain rfl : t = s := step_not_running (by simp [hs]) h
    exact ⟨v, n, by simp only [step, clockEdge, hst, hs], id, id⟩

end Sys2Proof.Machine
end

section
/-! PROOFS. The invariant of spec/45_pipeline.md R182 is kept by every step. Under the flush FSM of R168 a slot that holds a
record is dequeued, so after a commit each slot is what its producer enqueued; the record Decode enqueues is then checked
against what Execute, acting in the same cycle, left in the registers, the latch and data memory. -/

namespace Sys2Proof.Machine

/-! ### The hazard unit, field by field (R169 to R174) -/

section HazardUnit

variable (inc : DeRecord) (ex : Option DeRecord)

/-- The hazard unit changes the four flags only. -/
theorem hazardUnit_eq :
    hazardUnit inc ex =
      { inc with
        hazard := (hazardUnit inc ex).hazard
        fwd1 := (hazardUnit inc ex).fwd1
        fwd2 := (hazardUnit inc ex).fwd2
        memstall := (hazardUnit inc ex).memstall } := by
  unfold hazardUnit
  cases isBranchOp inc.op <;> cases ex <;> rfl

@[simp] theorem hazardUnit_word : (hazardUnit inc ex).word = inc.word := by rw [hazardUnit_eq]
@[simp] theorem hazardUnit_op : (hazardUnit inc ex).op = inc.op := by rw [hazardUnit_eq]
@[simp] theorem hazardUnit_fmt : (hazardUnit inc ex).fmt = inc.fmt := by rw [hazardUnit_eq]
@[simp] theorem hazardUnit_r1 : (hazardUnit inc ex).r1 = inc.r1 := by rw [hazardUnit_eq]
@[simp] theorem hazardUnit_r2 : (hazardUnit inc ex).r2 = inc.r2 := by rw [hazardUnit_eq]
@[simp] theorem hazardUnit_imm : (hazardUnit inc ex).imm = inc.imm := by rw [hazardUnit_eq]
@[simp] theorem hazardUnit_v1 : (hazardUnit inc ex).v1 = inc.v1 := by rw [hazardUnit_eq]
@[simp] theorem hazardUnit_v2 : (hazardUnit inc ex).v2 = inc.v2 := by rw [hazardUnit_eq]

theorem hazardUnit_fwd1 : (hazardUnit inc ex).fwd1 = (!isBranchOp inc.op && ex.any (forwardsR1 inc)) := by
  unfold hazardUnit
  cases isBranchOp inc.op <;> cases ex <;> rfl

theorem hazardUnit_fwd2 : (hazardUnit inc ex).fwd2 = (!isBranchOp inc.op && ex.any (forwardsR2 inc)) := by
  unfold hazardUnit
  cases isBranchOp inc.op <;> cases ex <;> rfl

theorem hazardUnit_memstall :
    (hazardUnit inc ex).memstall = (!isBranchOp inc.op && ex.any (memoryHazard inc)) := by
  unfold hazardUnit
  cases isBranchOp inc.op <;> cases ex <;> rfl

theorem hazardUnit_hazard :
    (hazardUnit inc ex).hazard =
      ((hazardUnit inc ex).memstall || (hazardUnit inc ex).fwd1 || (hazardUnit inc ex).fwd2) := by
  unfold hazardUnit
  cases isBranchOp inc.op <;> cases ex <;> rfl

end HazardUnit

theorem hazardUnit_fwd1_iff {inc : DeRecord} {ex : Option DeRecord} :
    (hazardUnit inc ex).fwd1 = true ↔
      isBranchOp inc.op = false ∧ ∃ e, ex = some e ∧ isProducer e.op = true ∧ consumesR1 inc.op = true ∧ inc.r1 = e.r1 := by
  cases ex <;> simp [hazardUnit_fwd1, forwardsR1, and_assoc]

theorem hazardUnit_fwd2_iff {inc : DeRecord} {ex : Option DeRecord} :
    (hazardUnit inc ex).fwd2 = true ↔
      isBranchOp inc.op = false ∧ ∃ e, ex = some e ∧ isProducer e.op = true ∧ inc.fmt = .r ∧ inc.r2 = some e.r1 := by
  cases ex <;> simp [hazardUnit_fwd2, forwardsR2, and_assoc]

theorem hazardUnit_memstall_iff {inc : DeRecord} {ex : Option DeRecord} :
    (hazardUnit inc ex).memstall = true ↔
      isBranchOp inc.op = false ∧
        ∃ e, ex = some e ∧ inc.op = opcodeMap .ldr ∧ e.op = opcodeMap .str ∧ inc.imm = e.imm := by
  cases ex <;> simp [hazardUnit_memstall, memoryHazard, and_assoc]

theorem mem_producers (m : Mnemonic) : m ∈ producers ↔ writesR1 m = true := by
  cases m <;> decide

/-- The opcode values of R170 are those of the instructions that write r1. -/
theorem isProducer_iff (op : Opcode) : isProducer op = true ↔ ∃ m, mnemonicOf op = some m ∧ writesR1 m = true := by
  simp [isProducer, mnemonicOf_eq_some, mem_producers, and_comm]

/-- An instruction that reads r1 in Execute is no branch and consumes r1 (R169, R172). -/
theorem consumes_of_readsR1 {m : Mnemonic} (h : readsR1 m = true) :
    isBranchOp (opcodeMap m) = false ∧ consumesR1 (opcodeMap m) = true := by
  revert h; cases m <;> decide

/-- An instruction that reads r2 in Execute is no branch (R169). -/
theorem not_branch_of_readsR2 {m : Mnemonic} (h : readsR2 m = true) : isBranchOp (opcodeMap m) = false := by
  revert h; cases m <;> decide

/-! ### The record Decode makes is one the invariant allows -/

theorem decodeRecord_r2 (w pc1 : Word) (s : State) :
    (decodeRecord w pc1 s).r2 = if formatOf (opField w) = .r then some (lowField w) else none := by
  simp only [decodeRecord]; cases formatOf (opField w) <;> rfl

theorem decodeRecord_imm (w pc1 : Word) (s : State) :
    (decodeRecord w pc1 s).imm =
      if formatOf (opField w) = .r then none else some (extendImm (opField w) (lowField w)) := by
  simp only [decodeRecord]; cases formatOf (opField w) <;> rfl

theorem decodeRecord_v2 (w pc1 : Word) (s : State) :
    (decodeRecord w pc1 s).v2 = if formatOf (opField w) = .r then readReg (lowField w) s else 0x00 := by
  simp only [decodeRecord]; cases formatOf (opField w) <;> rfl

/-- A record with an r2 is R-format (R35). -/
theorem decodeRecord_fmt_of_r2 {w pc1 : Word} {s : State} {q : RegIdx} (h : (decodeRecord w pc1 s).r2 = some q) :
    (decodeRecord w pc1 s).fmt = .r := by
  rw [decodeRecord_r2] at h
  split at h
  · assumption
  · simp at h

/-- The r2 value of a record is what its r2 reads. -/
theorem decodeRecord_v2_of_r2 {w pc1 : Word} {s : State} {q : RegIdx} (h : (decodeRecord w pc1 s).r2 = some q) :
    (decodeRecord w pc1 s).v2 = readReg q s := by
  have hf : formatOf (opField w) = .r := decodeRecord_fmt_of_r2 h
  rw [decodeRecord_r2, if_pos hf, Option.some.injEq] at h
  rw [decodeRecord_v2, if_pos hf, h]

/-- Decode's record of a word that is not the sentinel is well made. -/
theorem recordOk_decoded {w : Word} (hw : isSentinel w = false) (pc1 : Word) (s : State) (ex : Option DeRecord) :
    RecordOk (hazardUnit (decodeRecord w pc1 s) ex) where
  word := by simpa [decodeRecord] using hw
  op := by simp [decodeRecord]
  fmt := by simp [decodeRecord]
  r1 := by simp [decodeRecord]
  r2 := by simp only [hazardUnit_r2, hazardUnit_fmt, hazardUnit_word]; exact decodeRecord_r2 w pc1 s
  imm := by simp only [hazardUnit_imm, hazardUnit_fmt, hazardUnit_word]; exact decodeRecord_imm w pc1 s
  v2 := by
    intro hf
    have hf' : formatOf (opField w) = .i := by simpa [decodeRecord] using hf
    simp [decodeRecord_v2, hf']
  same := by
    intro h
    rw [hazardUnit_r2, hazardUnit_r1] at h
    rw [hazardUnit_v1, hazardUnit_v2, decodeRecord_v2_of_r2 h]
    rfl
  hazard := hazardUnit_hazard _ _
  branch := by
    intro h
    rw [hazardUnit_op] at h
    simp [hazardUnit_hazard, hazardUnit_memstall, hazardUnit_fwd1, hazardUnit_fwd2, h]
  fwd2 := by
    intro h
    obtain ⟨-, e, -, -, hf, -⟩ := hazardUnit_fwd2_iff.mp h
    rw [hazardUnit_fmt, hf]

/-! ### The flush FSM and the slots at the commit -/

theorem FlushFsmOk.estall_eq_zero {s : State} {r : DeRecord} (h : FlushFsmOk s) (hde : s.de = some r) : s.estall = 0 := by
  rcases h with ⟨-, h0⟩ | ⟨-, -, -, hn⟩ | ⟨-, -, hn⟩
  · exact h0
  all_goals simp [hn] at hde

/-- Execute empties a D→E slot that holds a record, so the slot is left with what Decode enqueues (R182, item 3). -/
theorem FlushFsmOk.slotAfter_de {s : State} (h : FlushFsmOk s) (q : Option DeRecord) :
    slotAfter q (executePops s) s.de = q := by
  cases q with
  | some r => rfl
  | none =>
    cases hde : s.de with
    | none => simp [slotAfter]
    | some r => simp [slotAfter, executePops, hde, h.estall_eq_zero hde]

/-- Decode empties a F→D slot that holds a record, so the slot is left with what Fetch enqueues (R182, item 3). -/
theorem FlushFsmOk.slotAfter_fd {s : State} (h : FlushFsmOk s) (q : Option FdRecord) :
    slotAfter q (decodePops s) s.fd = q := by
  cases q with
  | some r => rfl
  | none =>
    cases hfd : s.fd with
    | none => simp [slotAfter]
    | some r =>
      have hd : s.dstall = 0 := by
        rcases h with ⟨hd, -⟩ | ⟨-, -, hn, -⟩ | ⟨hd, -⟩
        · exact hd
        · simp [hn] at hfd
        · exact hd
      simp [slotAfter, decodePops, hfd, hd]

/-- A decode stall lasts one cycle (R155). -/
theorem decodeStallAfter_eq_zero (s : State) : decodeStallAfter s = 0 := by
  unfold decodeStallAfter
  generalize s.dstall = d
  revert d; decide

/-- Execute takes a branch, or leaves one execute stall less than there was (R158, R164). -/
theorem executeStage_branch_cases {s e : State} (he : executeStage s = .next e) (hr : e.status = .running) :
    (branchTaken s e = true ∧ ∃ target, e = takeBranch target s) ∨
      (branchTaken s e = false ∧ e.estall.val = s.estall.val - 1) := by
  rcases executeStage_performs he hr with ⟨i, hi, hx⟩ | ⟨h0, hde, rfl⟩ | ⟨h0, rfl⟩
  · obtain ⟨r, h0, hde, -⟩ := executing_eq_some.mp hi
    rcases exec_cases i s with ⟨r1, v, f, -, hx', -⟩ | ⟨r1, imm, -, hx'⟩ | ⟨target, -, hx'⟩ | ⟨-, -, hx'⟩
    all_goals obtain rfl : _ = e := by simpa [hx'] using hx
    · exact .inr ⟨by simp [branchTaken, h0], by simp [h0]⟩
    · exact .inr ⟨by simp [branchTaken, h0], by simp [h0]⟩
    · exact .inl ⟨by simp [branchTaken, executePops, h0, hde], target, rfl⟩
    · exact .inr ⟨by simp [branchTaken, h0], by simp [h0]⟩
  · exact .inr ⟨by simp [branchTaken, h0], by simp [h0]⟩
  · refine .inr ⟨by simp [branchTaken, executePops, h0], ?_⟩
    show (s.estall - 1).val = s.estall.val - 1
    generalize s.estall = d at h0
    revert d; decide

/-- The slots and the stall counters at the commit: flushed by a taken branch, or filled by Fetch and Decode. -/
theorem commit_slots {s e : State} (hfsm : FlushFsmOk s) (he : executeStage s = .next e) (hr : e.status = .running)
    (f : FetchResult) :
    ((commit s f e).fd = none ∧ (commit s f e).de = none ∧ (commit s f e).dstall = 1 ∧ (commit s f e).estall = 2) ∨
      ((commit s f e).fd = f.record ∧ (commit s f e).de = decodeStage s ∧ (commit s f e).dstall = 0 ∧
        (commit s f e).estall.val = s.estall.val - 1) := by
  simp only [commit_fd, commit_de, commit_dstall, commit_estall, hfsm.slotAfter_fd, hfsm.slotAfter_de,
    decodeStallAfter_eq_zero]
  rcases executeStage_branch_cases he hr with ⟨hb, target, rfl⟩ | ⟨hb, hest⟩
  · exact .inl (by simp [hb])
  · exact .inr (by simp [hb, hest])

end Sys2Proof.Machine
end

section
/-! PROOFS. The invariant of R182, continued: the operands of the record Decode enqueues, and the commit. -/

namespace Sys2Proof.Machine

/-! ### What Execute leaves for the record behind the one it performs -/

section Performed

variable {s e : State} {ex : DeRecord} (he : executeStage s = .next e) (hr : e.status = .running)
  (h0 : s.estall = 0) (hde : s.de = some ex)

include he hr h0 hde

/-- Execute performs the instruction of its record's fields. -/
theorem executeStage_performs_record :
    ∃ m, mnemonicOf (opField ex.word) = some m ∧ exec (instrOf m (r1Field ex.word) (lowField ex.word)) s = .next e := by
  rcases executeStage_performs he hr with ⟨i, hi, hx⟩ | ⟨-, hn, -⟩ | ⟨hne, -⟩
  · obtain ⟨r, -, hr', hd⟩ := executing_eq_some.mp hi
    obtain rfl : ex = r := by simpa [hde] using hr'
    obtain ⟨m, hm, rfl⟩ := (decode_eq_ok _ _).mp hd
    exact ⟨m, hm, hx⟩
  · simp [hde] at hn
  · exact absurd h0 hne

/-- A producer leaves its result in its register and in the latch (R162). -/
theorem executeStage_producer (hok : RecordOk ex) (hp : isProducer ex.op = true) :
    e.lat = { valid := true, value := readReg ex.r1 e, dest := some ex.r1 } := by
  obtain ⟨m, hm, hx⟩ := executeStage_performs_record he hr h0 hde
  obtain ⟨n, hn, hw⟩ := (isProducer_iff _).mp hp
  obtain rfl : m = n := by simpa [hok.op, hm] using hn
  obtain ⟨v, sreg, hx'⟩ := exec_instrOf_of_writesR1 hw (r1Field ex.word) (lowField ex.word) s
  obtain rfl : _ = e := by simpa [hx'] using hx
  simp [hok.r1, readReg_writeResult]

/-- A STR leaves its operand in its data cell and in the latch (R141, R162). -/
theorem executeStage_store (hok : RecordOk ex) (hop : ex.op = opcodeMap .str) {a : Byte} (ha : ex.imm = some a) :
    e.lat.value = readByte e (uval a) := by
  obtain ⟨m, hm, hx⟩ := executeStage_performs_record he hr h0 hde
  have hfield : opField ex.word = opcodeMap .str := hok.op.symm.trans hop
  obtain rfl : Mnemonic.str = m := by simpa [hfield] using hm
  have himm : zextImm (lowField ex.word) = a := by
    simpa [hok.fmt, hfield, formatOf, extendImm, Mnemonic.format, Mnemonic.signExtends, ha, eq_comm] using hok.imm
  obtain rfl : _ = e := by simpa [instrOf, exec_str] using hx
  simp [himm, readByte_writeByte]

end Performed

/-- Execute keeps every register but that of the producer it performs (R22). -/
theorem executeStage_keeps_reg {s e : State} (hok : ∀ ex, s.de = some ex → RecordOk ex) (he : executeStage s = .next e)
    (hr : e.status = .running) {q : RegIdx} (hq : ∀ ex, s.de = some ex → isProducer ex.op = true → q ≠ ex.r1) :
    readReg q e = readReg q s := by
  by_contra hne
  rcases executeStage_performs he hr with ⟨i, hi, hx⟩ | ⟨-, -, rfl⟩ | ⟨-, rfl⟩
  · obtain ⟨ex, -, hde, hd⟩ := executing_eq_some.mp hi
    obtain ⟨hw, hdest⟩ := exec_changed_reg hd hx hne
    obtain ⟨m, hm, rfl⟩ := (decode_eq_ok _ _).mp hd
    have hp : isProducer ex.op = true := (isProducer_iff _).mpr ⟨m, by rw [(hok ex hde).op, hm], by simpa using hw⟩
    exact hq ex hde hp (hdest.trans (hok ex hde).r1.symm)
  · exact hne rfl
  · exact hne rfl

/-! ### The operands of the record Decode enqueues (R182, items 4 to 6) -/

theorem operandA_of_de {s : State} {r : DeRecord} (h : s.de = some r) (q : RegIdx) :
    operandA q s = if r.fwd1 then s.lat.value else r.v1 := by
  simp only [operandA, h]

theorem operandB_of_de {s : State} {r : DeRecord} (h : s.de = some r) (q : RegIdx) :
    operandB q s = if r.fwd2 then s.lat.value else r.v2 := by
  simp only [operandB, h]

section Decoded

variable {s e t : State} (hi : Inv s) (he : executeStage s = .next e) (hr : e.status = .running) (hst : SameStorage e t)
  (w pc1 : Word)

include hi he hr hst

/-- The producer in Execute leaves the latch of R162 for the state after the cycle. -/
theorem latch_of_producer {ex : DeRecord} (hde : s.de = some ex) (hp : isProducer ex.op = true) :
    t.lat = { valid := true, value := readReg ex.r1 t, dest := some ex.r1 } := by
  rw [hst.lat, readReg_congr hst.x]
  exact executeStage_producer he hr (hi.fsm.estall_eq_zero hde) hde (hi.de ex hde).1 hp

/-- A register that no producer in Execute writes is the same after the cycle. -/
theorem reg_kept {q : RegIdx} (hq : ∀ ex, s.de = some ex → isProducer ex.op = true → q ≠ ex.r1) :
    readReg q t = readReg q s := by
  rw [readReg_congr hst.x]
  exact executeStage_keeps_reg (fun ex hde => (hi.de ex hde).1) he hr hq

theorem forwardsBacked_decoded : ForwardsBacked t (hazardUnit (decodeRecord w pc1 s) s.de) := by
  refine ⟨fun h => ?_, fun h q hq => ?_⟩
  · obtain ⟨-, ex, hde, hp, -, hreg⟩ := hazardUnit_fwd1_iff.mp h
    rw [hazardUnit_r1, hreg]
    exact latch_of_producer hi he hr hst hde hp
  · obtain ⟨-, ex, hde, hp, -, hreg⟩ := hazardUnit_fwd2_iff.mp h
    obtain rfl : ex.r1 = q := by simpa [hreg] using hq
    exact latch_of_producer hi he hr hst hde hp

theorem operandsCurrent_decoded (hde : t.de = some (hazardUnit (decodeRecord w pc1 s) s.de)) :
    OperandsCurrent t (hazardUnit (decodeRecord w pc1 s) s.de) := by
  obtain ⟨backed1, backed2⟩ := forwardsBacked_decoded hi he hr hst w pc1
  intro m hm
  have hop : (decodeRecord w pc1 s).op = opcodeMap m := by
    rw [hazardUnit_op] at hm
    exact ((mnemonicOf_eq_some _ _).mp hm).symm
  refine ⟨fun hreads => ?_, fun hreads q hq => ?_⟩
  · obtain ⟨hbr, hcons⟩ := consumes_of_readsR1 hreads
    rw [operandA_of_de hde]
    split
    · next h => rw [backed1 h]
    · next h =>
      rw [hazardUnit_v1, hazardUnit_r1]
      refine (reg_kept hi he hr hst fun ex hex hp hreg => h ?_).symm
      exact hazardUnit_fwd1_iff.mpr ⟨by rw [hop, hbr], ex, hex, hp, by rw [hop, hcons], hreg⟩
  · have hbr := not_branch_of_readsR2 hreads
    rw [operandB_of_de hde]
    split
    · next h => rw [backed2 h q hq]
    · next h =>
      rw [hazardUnit_r2] at hq
      rw [hazardUnit_v2, decodeRecord_v2_of_r2 hq]
      refine (reg_kept hi he hr hst fun ex hex hp hreg => h ?_).symm
      exact hazardUnit_fwd2_iff.mpr ⟨by rw [hop, hbr], ex, hex, hp, decodeRecord_fmt_of_r2 hq, by rw [hq, hreg]⟩

theorem memstallBacked_decoded : MemstallBacked t (hazardUnit (decodeRecord w pc1 s) s.de) := by
  intro h a ha
  obtain ⟨-, ex, hde, -, hstr, himm⟩ := hazardUnit_memstall_iff.mp h
  rw [hazardUnit_imm, himm] at ha
  rw [hst.lat, readByte_congr hst.dmem]
  exact executeStage_store he hr (hi.fsm.estall_eq_zero hde) hde (hi.de ex hde).1 hstr ha

end Decoded

/-! ### What Decode and Fetch hand on -/

/-- Decode enqueues, when not stalled, the record it makes of the F→D slot's word (R155, R156). -/
theorem decodeStage_eq_some {s : State} {r : DeRecord} :
    decodeStage s = some r ↔
      s.dstall = 0 ∧ ∃ g, s.fd = some g ∧ hazardUnit (decodeRecord g.word g.pc1 s) s.de = r := by
  unfold decodeStage
  by_cases hd : s.dstall = 0
  · simp [hd]
  · simp [hd]

/-- A Fetch that is not blocked counts a sentinel, or hands on a word that is none and clears the count (R152, R167). -/
theorem fetchStage_counts_or_fetches {s : State} {f : FetchResult} (hf : fetchStage s = .ok f) (hstop : s.stop.val < 3) :
    (f.record = none ∧ f.stop.val = s.stop.val + 1) ∨
      (f.stop = 0 ∧ ∃ r, f.record = some r ∧ isSentinel r.word = false) := by
  rw [fetchStage_eq, if_neg (by omega)] at hf
  split at hf
  · split at hf
    · obtain rfl : _ = f := by simpa using hf
      refine .inl ⟨rfl, ?_⟩
      show (s.stop + 1).val = s.stop.val + 1
      generalize s.stop = d at hstop
      revert d; decide
    · next hw =>
      obtain rfl : _ = f := by simpa using hf
      exact .inr ⟨rfl, _, rfl, by simpa [isSentinel, Config.sentinel] using hw⟩
  · simp at hf

/-! ### The memories -/

/-- Instructions keep both memories in their canonical form. -/
theorem exec_memories_wf {i : Instr} {s e : State} (he : exec i s = .next e) (hd : Memory.wf s.dmem) (hm : Imem.wf s.imem) :
    Memory.wf e.dmem ∧ Imem.wf e.imem := by
  rcases exec_cases i s with ⟨r1, v, f, -, hx, -⟩ | ⟨r1, imm, -, hx⟩ | ⟨target, -, hx⟩ | ⟨-, -, hx⟩
  all_goals obtain rfl : _ = e := by simpa [hx] using he
  · exact ⟨hd, hm⟩
  · have hlt : uval imm < 256 := imm.isLt
    exact ⟨Memory.wf_write _ (by simp only [Config.dmemSize]; omega) hd, hm⟩
  · exact ⟨hd, hm⟩
  · exact ⟨hd, hm⟩

theorem step_memories_wf {s t : State} (h : step s = .next t) (hd : Memory.wf s.dmem) (hm : Imem.wf s.imem) :
    Memory.wf t.dmem ∧ Imem.wf t.imem := by
  rcases step_storage h with hsame | ⟨i, e, -, -, he, hsame⟩
  · rw [hsame.dmem, hsame.imem]
    exact ⟨hd, hm⟩
  · rw [hsame.dmem, hsame.imem]
    exact exec_memories_wf he hd hm

/-! ### The invariant -/

/-- A fatal error keeps the invariant: it changes the status only (R204). -/
theorem inv_raiseFatal {s : State} (hi : Inv s) (err : FatalError) : Inv (raiseFatal err s) where
  dmem := hi.dmem
  imem := hi.imem
  sreg := hi.sreg
  fd := hi.fd
  de := hi.de
  fsm := hi.fsm
  stopFd := hi.stopFd
  stopDe := hi.stopDe
  running := by simp
  halted := by simp

section Commit

variable {s e : State} {f : FetchResult} (hi : Inv s) (he : executeStage s = .next e) (hr : e.status = .running)

include hi he hr

/-- Fetch never hands on the sentinel, so the F→D slot never holds it (R152). -/
theorem commit_fd_not_sentinel (hs : s.status = .running) (hf : fetchStage s = .ok f) {r : FdRecord}
    (h : (commit s f e).fd = some r) : isSentinel r.word = false := by
  rcases commit_slots hi.fsm he hr f with ⟨hfd, -⟩ | ⟨hfd, -⟩
  · simp [hfd] at h
  · rw [hfd] at h
    rcases fetchStage_counts_or_fetches hf (hi.running hs) with ⟨hn, -⟩ | ⟨-, g, hg, hw⟩
    · simp [hn] at h
    · obtain rfl : g = r := by simpa [hg] using h
      exact hw

/-- The record in the D→E slot after a commit is the one Decode made in the cycle, and R182's items 4 to 6 hold of it. -/
theorem commit_de_ok {r : DeRecord} (h : (commit s f e).de = some r) :
    RecordOk r ∧ ForwardsBacked (commit s f e) r ∧ OperandsCurrent (commit s f e) r ∧
      MemstallBacked (commit s f e) r := by
  have hst := sameStorage_commit s f e
  rcases commit_slots hi.fsm he hr f with ⟨-, hde, -⟩ | ⟨-, hde, -⟩
  · simp [hde] at h
  · obtain ⟨-, g, hg, rfl⟩ := decodeStage_eq_some.mp (hde.symm.trans h)
    exact ⟨recordOk_decoded (hi.fd g hg) _ _ _, forwardsBacked_decoded hi he hr hst _ _,
      operandsCurrent_decoded hi he hr hst _ _ h, memstallBacked_decoded hi he hr hst _ _⟩

/-- The flush FSM goes from RUN to FLUSH1 by a taken branch, from FLUSH1 to FLUSH2, and else to RUN (R168). -/
theorem commit_fsm : FlushFsmOk (commit s f e) := by
  rcases commit_slots hi.fsm he hr f with ⟨hfd, hde, hd, hest⟩ | ⟨-, hde, hd, hest⟩
  · exact .inr (.inl ⟨hd, hest, hfd, hde⟩)
  · rcases hi.fsm with ⟨-, h0⟩ | ⟨hd1, h2, -, -⟩ | ⟨-, h1, -⟩
    · exact .inl ⟨hd, Fin.ext (by rw [hest, h0]; rfl)⟩
    · have hnone : decodeStage s = none := by simp [decodeStage, hd1]
      exact .inr (.inr ⟨hd, Fin.ext (by rw [hest, h2]; rfl), hde.trans hnone⟩)
    · exact .inl ⟨hd, Fin.ext (by rw [hest, h1]; rfl)⟩

/-- While sentinels are counted the F→D slot is empty: Fetch handed nothing on (R182, item 7). -/
theorem commit_fd_of_stop (hs : s.status = .running) (hf : fetchStage s = .ok f) (h : f.stop ≠ 0) :
    (commit s f e).fd = none := by
  rcases commit_slots hi.fsm he hr f with ⟨hfd, -⟩ | ⟨hfd, -⟩
  · exact hfd
  · rcases fetchStage_counts_or_fetches hf (hi.running hs) with ⟨hn, -⟩ | ⟨h0, -⟩
    · exact hfd.trans hn
    · exact absurd h0 h

/-- From the second sentinel on the D→E slot is empty: Decode found the F→D slot empty (R182, item 7). -/
theorem commit_de_of_stop (hs : s.status = .running) (hf : fetchStage s = .ok f) (h : 2 ≤ f.stop.val) :
    (commit s f e).de = none := by
  rcases commit_slots hi.fsm he hr f with ⟨-, hde, -⟩ | ⟨-, hde, -⟩
  · exact hde
  · rcases fetchStage_counts_or_fetches hf (hi.running hs) with ⟨-, hcount⟩ | ⟨h0, -⟩
    · have hfd : s.fd = none := hi.stopFd fun h0 => by simp [h0] at hcount; omega
      rw [hde, decodeStage, hfd]
      simp
    · simp [h0] at h

/-- A commit keeps the invariant. -/
theorem inv_commit (hs : s.status = .running) (hf : fetchStage s = .ok f) (h : step s = .next (commit s f e)) :
    Inv (commit s f e) where
  dmem := (step_memories_wf h hi.dmem hi.imem).1
  imem := (step_memories_wf h hi.dmem hi.imem).2
  sreg := (step_reservedBits h).trans hi.sreg
  fd := fun _ => commit_fd_not_sentinel hi he hr hs hf
  de := fun _ => commit_de_ok hi he hr
  fsm := commit_fsm hi he hr
  stopFd := commit_fd_of_stop hi he hr hs hf
  stopDe := commit_de_of_stop hi he hr hs hf
  running := fun hrun => by
    by_contra hge
    have hstop : 3 ≤ f.stop.val := not_lt.mp hge
    have hde := commit_de_of_stop hi he hr hs hf (by omega)
    simp [commit_status, statusAfter, hde, hstop] at hrun
  halted := fun hhalt => by
    have hstop : 3 ≤ f.stop.val ∧ (commit s f e).de = none := by
      by_contra hn
      simp [commit_status, statusAfter, hn] at hhalt
    have h3 : f.stop = 3 := Fin.ext (le_antisymm (Nat.le_of_lt_succ f.stop.isLt) hstop.1)
    exact ⟨h3, commit_fd_of_stop hi he hr hs hf (by rw [h3]; decide), hstop.2⟩

end Commit

end Sys2Proof.Machine
end

section
/-! PROOFS. The statements about the state (spec/10_state.md) and its invariant, each a short use of the lemmas above. -/

namespace Sys2Proof.Machine

/-! ### Tier 3 -/

/-- Settles O47: a core that does not run keeps its state, a fatal error changes the status only, and a commit keeps each
conjunct. -/
theorem stepKeepsTheInvariant : Obligations.StepKeepsTheInvariant := by
  intro s t hi h
  by_cases hs : s.status = .running
  · rcases step_running_cases hs h with ⟨err, rfl⟩ | ⟨f, e, hf, he, hr, -, -, rfl⟩
    · exact inv_raiseFatal hi err
    · exact inv_commit hi he hr hs hf h
  · rw [step_not_running hs h]
    exact hi

/-! ### Tiers 2 and 1 -/

/-- Settles O29: a step changes registers by performing an instruction only, and that instruction only its r1. -/
theorem onlyTheExecutingProducerWritesItsRegister : Obligations.OnlyTheExecutingProducerWritesItsRegister := by
  intro s t h q hq
  rcases step_storage h with hsame | ⟨i, e, hs, hi, he, hsame⟩
  · exact absurd (readReg_congr hsame.x q) hq
  · obtain ⟨r, h0, hde, hd⟩ := executing_eq_some.mp hi
    rw [readReg_congr hsame.x] at hq
    obtain ⟨hw, hdest⟩ := exec_changed_reg hd he hq
    exact ⟨r, i, hs, hde, h0, hd, mem_producers_of_writesR1 hw, hdest⟩

/-- Settles O30, through R30's table `flagsWritten`. -/
theorem onlyTheListedInstructionsWriteEachFlag : Obligations.OnlyTheListedInstructionsWriteEachFlag := by
  refine ⟨fun s t h f hf => ?_, fun i f => ?_⟩
  · rcases step_storage h with hsame | ⟨i, e, hs, hi, he, hsame⟩
    · exact absurd (congrArg (getFlag f) hsame.sreg) hf
    · rw [hsame.sreg] at hf
      exact ⟨i, hs, hi, (mem_flagsWritten_iff _ _).mp (mem_flagsWritten_of_exec_changes he hf)⟩
  · refine ⟨fun h => exists_exec_changes_flag ((mem_flagsWritten_iff _ _).mpr h), ?_⟩
    rintro ⟨s, t, he, hf⟩
    exact (mem_flagsWritten_iff _ _).mp (mem_flagsWritten_of_exec_changes he hf)

/-- Settles O31. -/
theorem sregHoldsFiveFlagsAndThreeZeros : Obligations.SregHoldsFiveFlagsAndThreeZeros :=
  ⟨fun _ => ⟨rfl, rfl, rfl, rfl, rfl⟩, by decide, fun _ _ => step_reservedBits⟩

/-- Settles O54: the case of `step_withUnread` that keeps the cycle counter. -/
theorem noStepReadsTheStatusRegister : Obligations.NoStepReadsTheStatusRegister := by
  intro s t v h
  obtain ⟨v', n', hx, -, hn⟩ := step_withUnread h v s.cycle
  obtain rfl := hn rfl
  exact ⟨v', hx⟩

/-- Settles O55: the case of `step_withUnread` that keeps SREG. -/
theorem noStepReadsTheCycleCounter : Obligations.NoStepReadsTheCycleCounter := by
  intro s t n h
  obtain ⟨v', n', hx, hv, -⟩ := step_withUnread h s.sreg n
  obtain rfl := hv rfl
  exact ⟨n', hx⟩

/-- Settles O26. -/
theorem stoppedCoreTakesNoCycle : Obligations.StoppedCoreTakesNoCycle := by
  intro s hs
  cases hst : s.status with
  | running => exact absurd hst hs
  | halted | faulted => simp only [step, clockEdge, hst]

/-- Settles O43: every field of R220's table by evaluation; the parameters' defaults are the arguments of `State.reset`. -/
theorem resetGivesEveryFieldItsValue : Obligations.ResetGivesEveryFieldItsValue := by
  refine ⟨fun _ _ _ => rfl, fun q => ?_, fun _ => rfl, fun _ => rfl, _, _, _, rfl⟩
  simp [readReg, State.reset, State.resetWith, Config.initReg]

end Sys2Proof.Machine
end

section
/-! PROOFS. The memories (spec/20_memory.md): what the storage contract of R52 answers, which fatal errors a step can take,
and which cells a step writes and reads. -/

namespace Sys2Proof.Machine

/-! ### The storage contract (R52) -/

theorem readRegister_of_ge {n : Nat} (h : 64 ≤ n) (s : State) : readRegister n s = .error (.outOfBounds .register n) :=
  dif_neg (by omega)

theorem writeRegister_of_ge {n : Nat} (h : 64 ≤ n) (v : Byte) (s : State) :
    writeRegister n v s = .error (.outOfBounds .register n) :=
  dif_neg (by omega)

/-- A 6-bit index is always a register's: the storage contract and the core's own write agree. -/
theorem writeRegister_regIdx (q : RegIdx) (v : Byte) (s : State) : writeRegister q.toNat v s = .ok (writeReg q v s) :=
  dif_pos q.isLt

theorem readData_of_lt {n : Nat} (h : n < 2048) (s : State) : readData n s = .ok (readByte s n) := if_pos h

theorem readData_of_ge {n : Nat} (h : 2048 ≤ n) (s : State) : readData n s = .error (.outOfBounds .data n) :=
  if_neg (not_lt.mpr h)

theorem writeData_of_lt {n : Nat} (h : n < 2048) (v : Byte) (s : State) : writeData n v s = .ok (writeByte n v s) := if_pos h

theorem writeData_of_ge {n : Nat} (h : 2048 ≤ n) (v : Byte) (s : State) :
    writeData n v s = .error (.outOfBounds .data n) :=
  if_neg (not_lt.mpr h)

/-! ### The fatal errors a step can take (R200 to R203) -/

/-- Fetch fails only by its read of instruction memory (R200). -/
theorem fetchStage_error {s : State} {err : FatalError} (h : fetchStage s = .error err) :
    err = .outOfBounds .fetch s.pc.toNat := by
  rw [fetchStage_eq] at h
  split at h
  · cases h
  · split at h
    · split at h <;> cases h
    · cases h
      rfl

/-- Execute always answers a state. -/
theorem exists_executeStage_eq_next (s : State) : ∃ e, executeStage s = .next e := by
  rcases executeStage_cases s with ⟨r, -, -, -, hx⟩ | ⟨r, i, e, -, -, -, -, -, hx⟩ | ⟨-, -, hx⟩ | ⟨-, hx⟩
  all_goals exact ⟨_, hx⟩

/-- Execute fails only by dispatching a reserved opcode (R202). -/
theorem executeStage_faulted {s e : State} {err : FatalError} (hs : s.status = .running) (he : executeStage s = .next e)
    (hst : e.status = .faulted err) : ∃ r, s.de = some r ∧ err = unknownOpcodeOf r := by
  rcases executeStage_cases s with ⟨r, -, hde, -, hx⟩ | ⟨r, i, e', -, -, -, -, hkeep, hx⟩ | ⟨-, -, hx⟩ | ⟨-, hx⟩
  · obtain rfl : _ = e := by simpa [hx] using he
    exact ⟨r, hde, by simpa using hst.symm⟩
  · obtain rfl : e' = e := by simpa [hx] using he
    simp [hkeep, hs] at hst
  all_goals
    obtain rfl : _ = e := by simpa [hx] using he
    simp [hs] at hst

/-- The fatal error of a cycle whose fetch succeeded is Execute's or an overflow of a queue. -/
theorem cycleFault_eq_some {s e : State} {f : FetchResult} {err : FatalError} (h : cycleFault s f e = some err) :
    e.status = .faulted err ∨ ∃ q, err = .queueOverflow q := by
  unfold cycleFault at h
  cases hst : e.status with
  | faulted x =>
    rw [hst] at h
    exact .inl (congrArg RunStatus.faulted (Option.some.inj h))
  | running | halted =>
    simp only [hst] at h
    split at h
    · exact .inr ⟨_, (Option.some.inj h).symm⟩
    · split at h
      · exact .inr ⟨_, (Option.some.inj h).symm⟩
      · cases h

/-- A fatal error of a step is a fetch out of bounds, a reserved opcode at Execute, or a queue overflow. -/
theorem step_fatal_cases {s t : State} {err : FatalError} (hs : s.status = .running) (h : step s = .next t)
    (ht : t.status = .faulted err) :
    err = .outOfBounds .fetch s.pc.toNat ∨ (∃ r, s.de = some r ∧ err = unknownOpcodeOf r) ∨ ∃ q, err = .queueOverflow q := by
  have hc : cycleStep s = .next t := by simpa only [step, clockEdge, hs] using h
  cases hf : fetchStage s with
  | error x =>
    obtain rfl : raiseFatal x s = t := by simpa [cycleStep_of_fetchError hf] using hc
    obtain rfl : x = err := by simpa using ht
    exact .inl (fetchStage_error hf)
  | ok f =>
    obtain ⟨e, he⟩ := exists_executeStage_eq_next s
    rw [cycleStep_of_stages hf he] at hc
    cases hx : cycleFault s f e with
    | none =>
      obtain rfl : commit s f e = t := by simpa [hx] using hc
      rw [commit_status, statusAfter] at ht
      split at ht <;> cases ht
    | some x =>
      obtain rfl : raiseFatal x s = t := by simpa [hx] using hc
      obtain rfl : x = err := by simpa using ht
      rcases cycleFault_eq_some hx with hst | hq
      · exact .inr (.inl (executeStage_faulted hs he hst))
      · exact .inr (.inr hq)

/-- In a run only the read of an instruction fails (R200, R201). -/
theorem outOfBounds_space_of_step {s t : State} {space : Space} {n : Nat} (hs : s.status = .running) (h : step s = .next t)
    (ht : t.status = .faulted (.outOfBounds space n)) : space = .fetch := by
  rcases step_fatal_cases hs h ht with hx | ⟨r, -, hx⟩ | ⟨q, hx⟩
  all_goals cases hx
  rfl

/-! ### The cells a step writes -/

/-- No instruction writes instruction memory (R63). -/
theorem exec_imem {i : Instr} {s e : State} (he : exec i s = .next e) : e.imem = s.imem := by
  rcases exec_cases i s with ⟨r1, v, f, -, hx, -⟩ | ⟨r1, imm, -, hx⟩ | ⟨target, -, hx⟩ | ⟨-, -, hx⟩
  all_goals
    obtain rfl : _ = e := by simpa [hx] using he
    rfl

theorem step_imem {s t : State} (h : step s = .next t) : t.imem = s.imem := by
  rcases step_storage h with hsame | ⟨i, e, -, -, he, hsame⟩
  · exact hsame.imem
  · exact hsame.imem.trans (exec_imem he)

/-- What the decoder answers is well formed: its immediate is one the 6-bit field holds (R76). -/
theorem wellFormed_of_decode {w : Word} {i : Instr} (h : decode w = .ok i) : WellFormed i = true := by
  obtain ⟨m, -, rfl⟩ := (decode_eq_ok w i).mp h
  exact wellFormed_instrOf m _ _

/-- A zero-extended immediate, which the address of a well-formed LDR or STR is, lies below 64 (R51, R76). -/
theorem uval_lt_of_unsignedImmOk {imm : Byte} (h : unsignedImmOk imm = true) : uval imm < 64 :=
  Nat.lt_succ_of_le (of_decide_eq_true h)

/-- A decoded instruction writes no data cell at 64 or above (R51). -/
theorem exec_keeps_high_data {i : Instr} {s e : State} (hw : WellFormed i = true) (he : exec i s = .next e) {a : Nat}
    (ha : 64 ≤ a) : readByte e a = readByte s a := by
  rcases exec_cases i s with ⟨r1, v, f, -, hx, -⟩ | ⟨r1, imm, rfl, hx⟩ | ⟨target, -, hx⟩ | ⟨-, -, hx⟩
  all_goals obtain rfl : _ = e := by simpa [hx] using he
  case inr.inl =>
    have hne : a ≠ uval imm := ((uval_lt_of_unsignedImmOk hw).trans_le ha).ne'
    rw [readByte_recordStore, readByte_writeByte, if_neg hne]
  all_goals rfl

theorem step_keeps_high_data {s t : State} (h : step s = .next t) {a : Nat} (ha : 64 ≤ a) : readByte t a = readByte s a := by
  rcases step_storage h with hsame | ⟨i, e, -, hi, he, hsame⟩
  · exact readByte_congr hsame.dmem a
  · obtain ⟨r, -, -, hd⟩ := executing_eq_some.mp hi
    rw [readByte_congr hsame.dmem, exec_keeps_high_data (wellFormed_of_decode hd) he ha]

/-! ### The data cells a step reads -/

/-- The state with another data memory. -/
def withDmem (m : List Host.Cell) (s : State) : State := { s with dmem := m }

/-- Two data memories agree on the addresses the immediate of a word can name (R51). -/
def SameBelow64 (m n : List Host.Cell) : Prop := ∀ a, a < 64 → Memory.read m a = Memory.read n a

theorem SameBelow64.write {m n : List Host.Cell} (h : SameBelow64 m n) (a : Nat) (v : Byte) :
    SameBelow64 (Memory.write m a v) (Memory.write n a v) := by
  intro b hb
  rw [Memory.read_write, Memory.read_write, h b hb]

/-- A decoded instruction reads no data cell at 64 or above: LDR is the only one that reads a cell, and it reads one below. -/
theorem exec_withDmem {i : Instr} (hw : WellFormed i = true) {s : State} {m : List Host.Cell} (h : SameBelow64 m s.dmem) :
    ∃ e m', exec i s = .next e ∧ exec i (withDmem m s) = .next (withDmem m' e) ∧ SameBelow64 m' e.dmem := by
  cases i with
  | add | sub | mul | movi | andi | eor | br | sal | sar => exact ⟨_, m, rfl, rfl, h⟩
  | beqz r1 imm =>
    have hv : decodedV1 r1 (withDmem m s) = decodedV1 r1 s := rfl
    by_cases hz : decodedV1 r1 s = 0x00
    · exact ⟨takeBranch (relativeTarget (recordPc1 s) imm) s, m, by rw [exec_beqz, if_pos hz],
        by rw [exec_beqz, hv, if_pos hz]; rfl, h⟩
    · exact ⟨s, m, by rw [exec_beqz, if_neg hz], by rw [exec_beqz, hv, if_neg hz], h⟩
  | ldr r1 imm =>
    have hcell : readByte (withDmem m s) (uval imm) = readByte s (uval imm) := h _ (uval_lt_of_unsignedImmOk hw)
    exact ⟨_, m, exec_ldr r1 imm s, by rw [exec_ldr, hcell]; rfl, h⟩
  | str r1 imm => exact ⟨_, _, exec_str r1 imm s, exec_str r1 imm _, h.write _ _⟩

theorem executeStage_withDmem {s : State} {m : List Host.Cell} (h : SameBelow64 m s.dmem) :
    ∃ e m', executeStage s = .next e ∧ executeStage (withDmem m s) = .next (withDmem m' e) ∧ SameBelow64 m' e.dmem := by
  by_cases h0 : s.estall = 0
  · cases hde : s.de with
    | none => exact ⟨s, m, by simp [executeStage, h0, hde], by simp [executeStage, withDmem, h0, hde], h⟩
    | some r =>
      cases hd : decode r.word with
      | error x =>
        exact ⟨raiseFatal (unknownOpcodeOf r) s, m, by simp [executeStage, h0, hde, hd],
          by simp [executeStage, withDmem, h0, hde, hd, raiseFatal], h⟩
      | ok i =>
        obtain ⟨e, m', hx, hx', hm⟩ := exec_withDmem (wellFormed_of_decode hd) h
        refine ⟨e, m', by simp [executeStage, h0, hde, hd, hx], ?_, hm⟩
        rw [← hx']
        simp [executeStage, withDmem, h0, hde, hd]
  · exact ⟨{ s with estall := s.estall - 1 }, m, by simp [executeStage, h0], by simp [executeStage, withDmem, h0], h⟩

/-- The commit takes data memory along. -/
theorem commit_withDmem (s e : State) (f : FetchResult) (m m' : List Host.Cell) :
    commit (withDmem m s) f (withDmem m' e) = withDmem m' (commit s f e) := by
  have hb : branchTaken (withDmem m s) (withDmem m' e) = branchTaken s e := rfl
  simp only [commit, commitStages, hb]
  split <;> rfl

/-- A whole cycle reads no data cell at 64 or above. -/
theorem cycleStep_withDmem {s t : State} (hc : cycleStep s = .next t) {m : List Host.Cell} (h : SameBelow64 m s.dmem) :
    ∃ m', cycleStep (withDmem m s) = .next (withDmem m' t) ∧ SameBelow64 m' t.dmem := by
  have hfetch : fetchStage (withDmem m s) = fetchStage s := rfl
  cases hf : fetchStage s with
  | error err =>
    obtain rfl : raiseFatal err s = t := by simpa [cycleStep_of_fetchError hf] using hc
    exact ⟨m, cycleStep_of_fetchError (hfetch.trans hf), h⟩
  | ok f =>
    obtain ⟨e, m', he, he', hm⟩ := executeStage_withDmem h
    have hfault : cycleFault (withDmem m s) f (withDmem m' e) = cycleFault s f e := rfl
    rw [cycleStep_of_stages hf he] at hc
    rw [cycleStep_of_stages (hfetch.trans hf) he', hfault, commit_withDmem]
    cases hx : cycleFault s f e with
    | none =>
      obtain rfl : commit s f e = t := by simpa [hx] using hc
      exact ⟨m', rfl, by rwa [commit_dmem]⟩
    | some err =>
      obtain rfl : raiseFatal err s = t := by simpa [hx] using hc
      exact ⟨m, rfl, h⟩

/-- No step reads a data cell at 64 or above. -/
theorem step_withDmem {s t : State} (hstep : step s = .next t) {m : List Host.Cell} (h : SameBelow64 m s.dmem) :
    ∃ m', step (withDmem m s) = .next (withDmem m' t) ∧ SameBelow64 m' t.dmem := by
  have hst : (withDmem m s).status = s.status := rfl
  cases hs : s.status with
  | running =>
    have edge : step (withDmem m s) = cycleStep (withDmem m s) := by simp only [step, clockEdge, hst, hs]
    rw [edge]
    exact cycleStep_withDmem (by simpa only [step, clockEdge, hs] using hstep) h
  | halted | faulted =>
    obtain rfl : t = s := step_not_running (by simp [hs]) hstep
    exact ⟨m, by simp only [step, clockEdge, hst, hs], h⟩

/-! ### The instruction in the D→E slot, and the one behind it -/

/-- Only a branch has a target (R130, R131). -/
theorem isBranch_of_branchTargetOf {i : Instr} {s : State} {target : Word} (h : branchTargetOf i s = some target) :
    isBranch i.mnemonic = true := by
  cases i with
  | beqz | br => rfl
  | add | sub | mul | movi | andi | eor | sal | sar | ldr | str => cases h

section Slots

variable {s t : State} {r : DeRecord} {i : Instr} (hs : s.status = .running) (h0 : s.estall = 0) (hde : s.de = some r)
  (hd : decode r.word = .ok i)

include hs h0 hde hd

/-- A cycle without a fatal error commits what the instruction in the D→E slot did (R160). -/
theorem step_performs (h : step s = .next t) (hn : NotFaulted t) : ∃ f e, exec i s = .next e ∧ t = commit s f e := by
  rcases step_running_cases hs h with ⟨x, rfl⟩ | ⟨f, e, -, he, -, -, -, rfl⟩
  · exact absurd rfl (hn x)
  · exact ⟨f, e, by simpa [executeStage, h0, hde, hd] using he, rfl⟩

/-- Behind an instruction that is no branch, the F→D slot's word is in the D→E slot for the next cycle (R156, R165). -/
theorem decoded_word_is_next (hb : isBranch i.mnemonic = false) (h : step s = .next t) (hn : NotFaulted t)
    (hd0 : s.dstall = 0) {g : FdRecord} (hfd : s.fd = some g) : t.estall = 0 ∧ ∃ q, t.de = some q ∧ q.word = g.word := by
  obtain ⟨f, e, hx, rfl⟩ := step_performs hs h0 hde hd h hn
  have hest : e.estall = 0 := by
    rcases exec_cases i s with ⟨r1, v, sreg, -, hx', -⟩ | ⟨r1, imm, -, hx'⟩ | ⟨target, ht, -⟩ | ⟨hbr, -, -⟩
    · obtain rfl : _ = e := by simpa [hx'] using hx
      exact h0
    · obtain rfl : _ = e := by simpa [hx'] using hx
      exact h0
    · simp [isBranch_of_branchTargetOf ht] at hb
    · simp [hb] at hbr
  have hdec : decodeStage s = some (hazardUnit (decodeRecord g.word g.pc1 s) s.de) :=
    decodeStage_eq_some.mpr ⟨hd0, g, hfd, rfl⟩
  refine ⟨by rw [commit_estall, hest], hazardUnit (decodeRecord g.word g.pc1 s) s.de, ?_, hazardUnit_word _ _⟩
  rw [commit_de, hdec]
  simp [branchTaken, hest, slotAfter]

end Slots

end Sys2Proof.Machine
end

section
/-! PROOFS. The statements about the memories (spec/20_memory.md), each a short use of the lemmas above. -/

namespace Sys2Proof.Machine

/-- Settles O32. -/
theorem instructionMemoryNeverChanges : Obligations.InstructionMemoryNeverChanges := by
  refine ⟨fun s t => step_imem, fun r1 imm s t h => ?_⟩
  rw [exec_str] at h
  cases h
  rfl

/-- Settles O41: the contract's two answers for each operation, and `outOfBounds_space_of_step` for a run. -/
theorem storageOperationsFailExactlyOutsideTheirBound :
    Obligations.StorageOperationsFailExactlyOutsideTheirBound := by
  intro s n v
  refine ⟨?register, fun h => ⟨readRegister_of_ge h s, writeRegister_of_ge h v s⟩, fun h => ?data,
    fun h => ⟨readData_of_ge h s, writeData_of_ge h v s⟩, fun h => (readInstruction_eq n s).trans (if_pos h),
    fun h => (readInstruction_eq n s).trans (if_neg (not_lt.mpr h)), fun t space => outOfBounds_space_of_step⟩
  case register =>
    rintro q rfl
    refine ⟨readRegister_regIdx q s, writeReg q v s, writeRegister_regIdx q v s, ?_, fun p hp => ?_, rfl⟩
    · rw [readReg_writeReg, if_pos rfl]
    · rw [readReg_writeReg, if_neg hp]
  case data =>
    refine ⟨readData_of_lt h s, writeByte n v s, writeData_of_lt h v s, ?_, fun a ha => ?_, rfl⟩
    · rw [readByte_writeByte, if_pos rfl]
    · rw [readByte_writeByte, if_neg ha]

/-- Settles O53: the STR's cycle leaves its operand in the cell and the LDR in the D→E slot, whose cycle reads the cell
physically (R140), so the memory hazard's latch is not needed. -/
theorem loadRightAfterStoreReadsTheStoredByte : Obligations.LoadRightAfterStoreReadsTheStoredByte := by
  intro s t u e f a b imm hs hd0 h0 hde hstr hfd hldr hst ht htu hu
  have htn : NotFaulted t := fun x hx => by simp [ht] at hx
  obtain ⟨hest, r, htde, hword⟩ := decoded_word_is_next hs h0 hde hstr rfl hst htn hd0 hfd
  obtain ⟨g, t', hx, rfl⟩ := step_performs hs h0 hde hstr hst htn
  obtain ⟨g', u', hx', rfl⟩ := step_performs ht hest htde (by rwa [hword]) htu hu
  have hcell : readByte (commit s g t') (uval imm) = operandA a s := by
    rw [exec_str] at hx
    cases hx
    rw [readByte_congr (commit_dmem _ _ _), readByte_recordStore, readByte_writeByte, if_pos rfl]
  rw [exec_ldr] at hx'
  cases hx'
  refine ⟨?_, ?_⟩
  · rw [readReg_congr (commit_x _ _ _), readReg_writeResult, if_pos rfl, hcell]
  · rw [readByte_congr (commit_dmem _ _ _), readByte_writeResult]
    exact hcell

/-- Settles O56: the addresses are zero-extended 6-bit immediates. -/
theorem instructionsReachOnlyDataAddressesBelow64 : Obligations.InstructionsReachOnlyDataAddressesBelow64 :=
  fun _ _ h => ⟨fun _ => step_keeps_high_data h, fun _ => step_withDmem h⟩

end Sys2Proof.Machine
end

section
/-! PROOFS. The encoding (spec/30_encoding.md): the readings of a word's fields as numbers, `encode` and `decode` as
inverses, the rows of the opcode table, and what the assembler answers. -/

namespace Sys2Proof

/-! ### The fields as numbers (R71) -/

theorem toNat_joinFields (op : Opcode) (r1 : RegIdx) (low : BitVec 6) :
    (joinFields op r1 low).toNat = op.toNat * 4096 + r1.toNat * 64 + low.toNat := by
  show (op ++ r1 ++ low : BitVec (4 + 6 + 6)).toNat = _
  rw [BitVec.toNat_append, BitVec.toNat_append, ← Nat.shiftLeft_add_eq_or_of_lt r1.isLt,
    ← Nat.shiftLeft_add_eq_or_of_lt low.isLt, Nat.shiftLeft_eq, Nat.shiftLeft_eq]
  omega

theorem toNat_opField (w : Word) : (opField w).toNat = w.toNat / 4096 := by
  have hw : w.toNat < 65536 := w.isLt
  rw [opField, BitVec.extractLsb'_toNat, Nat.shiftRight_eq_div_pow]
  omega

theorem toNat_r1Field (w : Word) : (r1Field w).toNat = w.toNat / 64 % 64 := by
  rw [r1Field, BitVec.extractLsb'_toNat, Nat.shiftRight_eq_div_pow]

theorem toNat_lowField (w : Word) : (lowField w).toNat = w.toNat % 64 := by
  rw [lowField, BitVec.extractLsb'_toNat, Nat.shiftRight_zero]

theorem lowField_eq_ofNat (w : Word) : lowField w = BitVec.ofNat 6 w.toNat :=
  BitVec.eq_of_toNat_eq (by rw [toNat_lowField, BitVec.toNat_ofNat])

/-! ### Decoding and encoding are inverses (R71 to R78) -/

/-- The word of an instruction is its opcode and the fields it was made of. -/
theorem encode_instrOf (m : Mnemonic) (r1 : RegIdx) (low : BitVec 6) :
    encode (instrOf m r1 low) = joinFields (opcodeMap m) r1 low := by
  cases m <;> simp [instrOf, encode]

theorem decode_joinFields (m : Mnemonic) (r1 : RegIdx) (low : BitVec 6) :
    decode (joinFields (opcodeMap m) r1 low) = .ok (instrOf m r1 low) :=
  (decode_eq_ok _ _).mpr ⟨m, by simp, by simp⟩

/-- A well-formed instruction is made of fields: its immediate is the extension of its low six bits (R76). -/
theorem exists_instrOf_of_wellFormed {i : Instr} (h : WellFormed i = true) : ∃ m r1 low, i = instrOf m r1 low := by
  cases i with
  | add r1 r2 => exact ⟨.add, r1, r2, rfl⟩
  | sub r1 r2 => exact ⟨.sub, r1, r2, rfl⟩
  | mul r1 r2 => exact ⟨.mul, r1, r2, rfl⟩
  | eor r1 r2 => exact ⟨.eor, r1, r2, rfl⟩
  | br r1 r2 => exact ⟨.br, r1, r2, rfl⟩
  | movi r1 imm => exact ⟨.movi, r1, imm.setWidth 6, by rw [instrOf, sextImm_setWidth imm h]⟩
  | beqz r1 imm => exact ⟨.beqz, r1, imm.setWidth 6, by rw [instrOf, sextImm_setWidth imm h]⟩
  | andi r1 imm => exact ⟨.andi, r1, imm.setWidth 6, by rw [instrOf, sextImm_setWidth imm h]⟩
  | sal r1 imm => exact ⟨.sal, r1, imm.setWidth 6, by rw [instrOf, zextImm_setWidth imm h]⟩
  | sar r1 imm => exact ⟨.sar, r1, imm.setWidth 6, by rw [instrOf, zextImm_setWidth imm h]⟩
  | ldr r1 imm => exact ⟨.ldr, r1, imm.setWidth 6, by rw [instrOf, zextImm_setWidth imm h]⟩
  | str r1 imm => exact ⟨.str, r1, imm.setWidth 6, by rw [instrOf, zextImm_setWidth imm h]⟩

/-- A word whose opcode is a mnemonic's is the word of the instruction it decodes to. -/
theorem encode_instrOf_fields {w : Word} {m : Mnemonic} (h : opcodeMap m = opField w) :
    encode (instrOf m (r1Field w) (lowField w)) = w := by
  rw [encode_instrOf, h, joinFields_fields]

/-- A word other than the sentinel is refused as an unknown opcode exactly when its opcode names no mnemonic (R79). -/
theorem decode_eq_unknownOpcode {w : Word} (hw : w ≠ Config.sentinel) :
    decode w = .error (.unknownOpcode (opField w)) ↔ mnemonicOf (opField w) = none := by
  rw [decode, if_neg hw]
  cases mnemonicOf (opField w) <;> simp

/-! ### The rows of the opcode table (R82) -/

/-- A table row's match has the row's opcode on top, and twelve zeros. -/
theorem opField_append_zero (op : Opcode) : opField (op ++ 0#12) = op := BitVec.extractLsb'_append_eq_left

/-- A word under the mask 0xF000 keeps its opcode only. -/
theorem and_opcodeMask (w : Word) : w &&& 0xF000#16 = opField w ++ 0#12 := by
  have hmask : 0xF000#16 = BitVec.allOnes 4 ++ 0#12 := by decide
  apply BitVec.eq_of_getLsbD_eq
  intro k hk
  rw [BitVec.getLsbD_and, hmask, BitVec.getLsbD_append, BitVec.getLsbD_append, BitVec.getLsbD_allOnes, opField,
    BitVec.getLsbD_extractLsb']
  by_cases h : k < 12
  · simp [h]
  · have h4 : k - 12 < 4 := by omega
    have h12 : 12 + (k - 12) = k := by omega
    simp [h, h4, h12]

/-- A word matches the row of an opcode exactly when it has that opcode. -/
theorem and_opcodeMask_eq_iff (w : Word) (op : Opcode) : w &&& 0xF000#16 = op ++ 0#12 ↔ opField w = op := by
  rw [and_opcodeMask]
  exact ⟨fun h => by simpa only [opField_append_zero] using congrArg opField h, fun h => by rw [h]⟩

/-! ### The extended immediate (R74, R75) -/

theorem sextImm_of_bit5_set {f : BitVec 6} (h : f.getLsbD 5 = true) : sextImm f = f.setWidth 8 ||| 0xC0#8 := by
  have hmsb : f.msb = true := h
  have hbits : 0xC0#8 = BitVec.allOnes 2 ++ 0#6 := by decide
  apply BitVec.eq_of_getLsbD_eq
  intro k hk
  rw [sextImm, BitVec.getLsbD_signExtend, BitVec.getLsbD_or, BitVec.getLsbD_setWidth, hbits, BitVec.getLsbD_append,
    BitVec.getLsbD_allOnes, hmsb]
  by_cases h6 : k < 6
  · simp [h6, hk]
  · have h2 : k - 6 < 2 := by omega
    simp [h6, hk, h2]

theorem sextImm_of_bit5_clear {f : BitVec 6} (h : f.getLsbD 5 = false) : sextImm f = f.setWidth 8 :=
  BitVec.signExtend_eq_setWidth_of_msb_false h

/-- The sign extension is negative exactly when bit 5 of the field is set. -/
theorem sval_sextImm_neg_iff (f : BitVec 6) : sval (sextImm f) < 0 ↔ f.getLsbD 5 = true := by
  have hmsb : f.msb = f.getLsbD 5 := rfl
  rw [sval, sextImm, BitVec.toInt_signExtend_of_le (by decide), ← hmsb, BitVec.msb_eq_toInt, decide_eq_true_iff]

/-! ### The assembler (R84) -/

/-- R84's range of a mnemonic's second operand. -/
def operandInRange (m : Mnemonic) (n : Int) : Prop :=
  if m.signExtends = true then -32 ≤ n ∧ n ≤ 31 else 0 ≤ n ∧ n ≤ 63

theorem assemble_of_inRange {m : Mnemonic} {a : Nat} {n : Int} (ha : a < 64) (hn : operandInRange m n) :
    assemble m a n = some (joinFields (opcodeMap m) (BitVec.ofNat 6 a) (BitVec.ofInt 6 n)) := by
  unfold operandInRange at hn
  cases hm : m.signExtends <;> simp_all [assemble]

theorem assemble_of_not_inRange {m : Mnemonic} {a : Nat} {n : Int} (h : ¬(a < 64 ∧ operandInRange m n)) :
    assemble m a n = none := by
  unfold operandInRange at h
  cases hm : m.signExtends <;> simp_all [assemble]

/-- The number of an assembled word: the opcode, the register and the operand modulo 64, each in its field. -/
theorem toNat_assembled (m : Mnemonic) {a : Nat} (ha : a < 64) (n : Int) :
    ((joinFields (opcodeMap m) (BitVec.ofNat 6 a) (BitVec.ofInt 6 n)).toNat : Int) =
      (opcodeMap m).toNat * 4096 + a * 64 + n % 64 := by
  have hn : ((BitVec.ofInt 6 n).toNat : Int) = n % 64 := by
    rw [BitVec.toNat_ofInt, Int.toNat_of_nonneg (Int.emod_nonneg n (by decide))]
    rfl
  rw [toNat_joinFields, BitVec.toNat_ofNat, Nat.mod_eq_of_lt ha]
  push_cast
  rw [hn]

end Sys2Proof
end

section
/-! PROOFS. The decoder's record (R81), field by field. -/

namespace Sys2Proof.Machine

/-- The opcode values of the R-format instructions (R72). -/
theorem formatOf_eq_r_iff (op : Opcode) : formatOf op = .r ↔ op ∈ [0, 1, 2, 6, (7 : Opcode)] := by
  revert op; decide

theorem formatOf_of_mnemonicOf {op : Opcode} {m : Mnemonic} (h : mnemonicOf op = some m) : formatOf op = m.format := by
  rw [formatOf, h]

theorem extendImm_of_mnemonicOf {op : Opcode} {m : Mnemonic} (h : mnemonicOf op = some m) (f : BitVec 6) :
    extendImm op f = if m.signExtends = true then sextImm f else zextImm f := by
  rw [extendImm, h]

/-- The opcode values of MOVI, BEQZ and ANDI, which sign-extend their immediate (R74). -/
theorem signExtends_mnemonicOf (op : Opcode) :
    (mnemonicOf op).any Mnemonic.signExtends = true ↔ op ∈ [3, 4, (5 : Opcode)] := by
  revert op; decide

theorem extendImm_eq (op : Opcode) (f : BitVec 6) :
    extendImm op f = if op ∈ [3, 4, (5 : Opcode)] then sextImm f else zextImm f := by
  rw [← if_congr (signExtends_mnemonicOf op) rfl rfl, extendImm]
  cases mnemonicOf op <;> rfl

/-- R81's record of an R-format word. -/
theorem decodeRecord_of_format_r {w : Word} (h : formatOf (opField w) = .r) (pc1 : Word) (s : State) :
    (decodeRecord w pc1 s).r2 = some (lowField w) ∧ (decodeRecord w pc1 s).imm = none ∧
      (decodeRecord w pc1 s).v2 = readReg (lowField w) s := by
  rw [decodeRecord_r2, decodeRecord_imm, decodeRecord_v2]
  simp [h]

/-- R81's record of an I-format word. -/
theorem decodeRecord_of_format_i {w : Word} (h : formatOf (opField w) = .i) (pc1 : Word) (s : State) :
    (decodeRecord w pc1 s).r2 = none ∧ (decodeRecord w pc1 s).imm = some (extendImm (opField w) (lowField w)) ∧
      (decodeRecord w pc1 s).v2 = 0x00 := by
  rw [decodeRecord_r2, decodeRecord_imm, decodeRecord_v2]
  simp [h]

/-- The record of the word of an R-format instruction has the instruction's operands. -/
theorem decodeRecord_of_mnemonic_r {w : Word} {m : Mnemonic} (hm : mnemonicOf (opField w) = some m)
    (hf : m.format = .r) (pc1 : Word) (s : State) :
    (decodeRecord w pc1 s).fmt = .r ∧ (decodeRecord w pc1 s).r1 = r1Field w ∧
      (decodeRecord w pc1 s).r2 = some (lowField w) ∧ (decodeRecord w pc1 s).imm = none := by
  have hfmt : formatOf (opField w) = .r := (formatOf_of_mnemonicOf hm).trans hf
  obtain ⟨hr2, himm, -⟩ := decodeRecord_of_format_r hfmt pc1 s
  exact ⟨hfmt, rfl, hr2, himm⟩

/-- The record of the word of an I-format instruction has the instruction's operands. -/
theorem decodeRecord_of_mnemonic_i {w : Word} {m : Mnemonic} (hm : mnemonicOf (opField w) = some m)
    (hf : m.format = .i) (pc1 : Word) (s : State) :
    (decodeRecord w pc1 s).fmt = .i ∧ (decodeRecord w pc1 s).r1 = r1Field w ∧ (decodeRecord w pc1 s).r2 = none ∧
      (decodeRecord w pc1 s).imm = some (if m.signExtends = true then sextImm (lowField w) else zextImm (lowField w)) := by
  have hfmt : formatOf (opField w) = .i := (formatOf_of_mnemonicOf hm).trans hf
  obtain ⟨hr2, himm, -⟩ := decodeRecord_of_format_i hfmt pc1 s
  exact ⟨hfmt, rfl, hr2, by rw [himm, extendImm_of_mnemonicOf hm]⟩

end Sys2Proof.Machine
end

section
/-! PROOFS. The statements about the encoding (spec/30_encoding.md), each a short use of the lemmas above. -/

namespace Sys2Proof.Machine

/-- Settles O1: a well-formed instruction is made of fields, and decoding reads the same fields back. -/
theorem decodeInvertsEncode : Obligations.DecodeInvertsEncode := by
  intro i h
  obtain ⟨m, r1, low, rfl⟩ := exists_instrOf_of_wellFormed h
  rw [encode_instrOf, decode_joinFields]

/-- Settles O2: the instruction is the one made of the word's own fields. -/
theorem everyWordWithADefinedOpcodeIsAnInstruction : Obligations.EveryWordWithADefinedOpcodeIsAnInstruction := by
  refine ⟨?_, decode_joinFields, fun a b => ⟨rfl, rfl, rfl, rfl, rfl⟩⟩
  rintro w ⟨m, hm⟩
  exact ⟨instrOf m (r1Field w) (lowField w), (decode_eq_ok w _).mpr ⟨m, (mnemonicOf_eq_some _ _).mpr hm, rfl⟩,
    wellFormed_instrOf m _ _, encode_instrOf_fields hm⟩

/-- Settles O3: a word matches a row exactly when it has the row's opcode, and OPCODE_MAP is injective with image 0 to 11. -/
theorem opcodeTableRowsMatchExactlyOnce : Obligations.OpcodeTableRowsMatchExactlyOnce := by
  intro w
  simp only [and_opcodeMask_eq_iff, ne_eq]
  refine ⟨fun hle => ?defined, fun hge m hm => ?reserved, fun i hi => ?decoded⟩
  case defined =>
    have hsome : mnemonicOf (opField w) ≠ none := fun hn => by
      have := (mnemonicOf_eq_none _).mp hn
      omega
    obtain ⟨m, hm⟩ := Option.ne_none_iff_exists'.mp hsome
    have hop : opcodeMap m = opField w := (mnemonicOf_eq_some _ _).mp hm
    exact ⟨m, hop.symm, fun n hn => (opcodeMap_injective n m).mp (hn.symm.trans hop.symm)⟩
  case reserved =>
    have hnone := (mnemonicOf_eq_none _).mpr hge
    rw [hm, mnemonicOf_opcodeMap] at hnone
    cases hnone
  case decoded =>
    obtain ⟨m, hm, rfl⟩ := (decode_eq_ok w i).mp hi
    rw [mnemonic_instrOf, (mnemonicOf_eq_some _ _).mp hm]

/-- Settles O4: the opcode values 12 to 15 are those that name no mnemonic. -/
theorem reservedWordsAreRefusedByName : Obligations.ReservedWordsAreRefusedByName :=
  ⟨if_pos rfl, fun _ hw => (mnemonicOf_eq_none _).symm.trans (decode_eq_unknownOpcode hw).symm⟩

/-- Settles O6. -/
theorem assemblerEncodesInRangeAndRefusesTheRest : Obligations.AssemblerEncodesInRangeAndRefusesTheRest :=
  fun m _ n => ⟨fun ⟨ha, hn⟩ => ⟨_, assemble_of_inRange ha hn, toNat_assembled m ha n⟩, assemble_of_not_inRange⟩

/-- Settles O5. -/
theorem signExtensionIdentity : Obligations.SignExtensionIdentity := by
  refine fun f => ⟨fun h => ⟨sextImm_of_bit5_set h, (sval_sextImm_neg_iff f).mpr h⟩,
    fun h => ⟨sextImm_of_bit5_clear h, ?_⟩⟩
  rw [← not_lt, sval_sextImm_neg_iff, h]
  exact Bool.false_ne_true

/-- Settles O7: each word is the join of its opcode, its r1 and its low field. -/
theorem sampleWordsDecode : Obligations.SampleWordsDecode :=
  ⟨decode_joinFields .add 1 2, decode_joinFields .sub 4 5, decode_joinFields .mul 3 3,
    decode_joinFields .movi 3 0b111111, decode_joinFields .beqz 0 0b111011, decode_joinFields .andi 63 0b100000,
    decode_joinFields .eor 2 3, decode_joinFields .br 20 21, decode_joinFields .sal 8 0b111111,
    decode_joinFields .sar 63 0, decode_joinFields .ldr 11 7, decode_joinFields .str 10 7⟩

/-- Settles O35: the record's fields by the word's format, and for an instruction by its mnemonic's. -/
theorem decoderBuildsTheRecordOfAWord : Obligations.DecoderBuildsTheRecordOfAWord := by
  intro w pc1 s
  refine ⟨rfl, rfl, toNat_opField w, toNat_r1Field w, rfl, rfl, rfl, rfl, rfl, formatOf_eq_r_iff _, fun hr => ?formatR,
    fun hi => ?formatI, fun i hd => ?instruction⟩
  case formatR =>
    obtain ⟨hr2, himm, hv2⟩ := decodeRecord_of_format_r hr pc1 s
    exact ⟨lowField w, hr2, toNat_lowField w, himm, hv2⟩
  case formatI =>
    obtain ⟨hr2, himm, hv2⟩ := decodeRecord_of_format_i hi pc1 s
    rw [extendImm_eq] at himm
    refine ⟨hr2, hv2, _, himm, fun (hop : opField w ∈ _) => ?_, fun (hop : opField w ∉ _) => ?_⟩
    · rw [if_pos hop, sextImm, lowField_eq_ofNat]
    · rw [if_neg hop, zextImm, BitVec.toNat_setWidth_of_le (by decide), toNat_lowField]
  case instruction =>
    obtain ⟨m, hm, rfl⟩ := (decode_eq_ok w i).mp hd
    refine ⟨by rw [mnemonic_instrOf, (mnemonicOf_eq_some _ _).mp hm]; rfl, ?_⟩
    cases m with
    | add | sub | mul | eor | br => exact decodeRecord_of_mnemonic_r hm rfl pc1 s
    | movi | beqz | andi | sal | sar | ldr | str => exact decodeRecord_of_mnemonic_i hm rfl pc1 s

end Sys2Proof.Machine
end

section
/-! PROOFS. The numbers behind the arithmetic of spec/40_alu.md: `trunc8` takes sums, differences and products to those of
bytes, whichever way the operands are read; signed overflow by the sign bits; the two shifts as those of bit vectors. -/

namespace Sys2Proof

/-! ### Truncation (R10) -/

theorem trunc8_add (m n : Int) : trunc8 (m + n) = trunc8 m + trunc8 n := BitVec.ofInt_add m n

theorem trunc8_mul (m n : Int) : trunc8 (m * n) = trunc8 m * trunc8 n := BitVec.ofInt_mul m n

theorem trunc8_sub (m n : Int) : trunc8 (m - n) = trunc8 m - trunc8 n := by
  have hneg : trunc8 (-n) = -trunc8 n := BitVec.ofInt_neg
  rw [Int.sub_eq_add_neg, trunc8_add, hneg, ← BitVec.sub_eq_add_neg]

@[simp] theorem trunc8_sval (a : Byte) : trunc8 (sval a) = a := BitVec.ofInt_toInt

@[simp] theorem trunc8_uval (a : Byte) : trunc8 (uval a) = a := by
  rw [trunc8, BitVec.ofInt_natCast, BitVec.ofNat_toNat, BitVec.setWidth_eq]

theorem trunc8_two_pow (k : Nat) : trunc8 (2 ^ k) = BitVec.twoPow 8 k := by
  have hcast : (2 : Int) ^ k = (2 ^ k : Nat) := by push_cast; rfl
  rw [trunc8, hcast, BitVec.ofInt_natCast]
  exact BitVec.eq_of_toNat_eq (by rw [BitVec.toNat_ofNat, BitVec.toNat_twoPow])

theorem sval_bounds (a : Byte) : -128 ≤ sval a ∧ sval a ≤ 127 :=
  ⟨BitVec.le_toInt a, Int.le_of_lt_add_one BitVec.toInt_lt⟩

/-- The exact signed product, whose extremes are -128 * 127 and -128 * -128 (R102). -/
theorem sval_mul_bounds (a b : Byte) : -16256 ≤ sval a * sval b ∧ sval a * sval b ≤ 16384 := by
  obtain ⟨ha, ha'⟩ := sval_bounds a
  obtain ⟨hb, hb'⟩ := sval_bounds b
  have hll := Int.mul_nonneg (Int.sub_nonneg_of_le ha) (Int.sub_nonneg_of_le hb)
  have hlu := Int.mul_nonneg (Int.sub_nonneg_of_le ha) (Int.sub_nonneg_of_le hb')
  have hul := Int.mul_nonneg (Int.sub_nonneg_of_le ha') (Int.sub_nonneg_of_le hb)
  have huu := Int.mul_nonneg (Int.sub_nonneg_of_le ha') (Int.sub_nonneg_of_le hb')
  constructor
  · linarith
  · linarith

/-! ### Signed overflow by the sign bits (R100, R101) -/

/-- A sum overflows exactly when the operands agree in sign and the truncated sum does not. -/
theorem add_overflows_iff (a b : Byte) :
    (sval a + sval b < -128 ∨ sval a + sval b > 127) ↔
      a.getLsbD 7 = b.getLsbD 7 ∧ (a + b).getLsbD 7 ≠ a.getLsbD 7 := by
  have hsign : a.saddOverflow b = (a.getLsbD 7 == b.getLsbD 7 && !(a + b).getLsbD 7 == a.getLsbD 7) :=
    BitVec.saddOverflow_eq a b
  have hdef : a.saddOverflow b = true ↔ sval a + sval b < -128 ∨ sval a + sval b > 127 := by
    rw [sval, sval, BitVec.saddOverflow, Bool.or_eq_true, decide_eq_true_iff, decide_eq_true_iff]
    omega
  rw [← hdef, hsign]
  simp

/-- A difference overflows exactly when the operands differ in sign and the truncated difference has not that of the
first. -/
theorem sub_overflows_iff (a b : Byte) :
    (sval a - sval b < -128 ∨ sval a - sval b > 127) ↔
      a.getLsbD 7 ≠ b.getLsbD 7 ∧ (a - b).getLsbD 7 ≠ a.getLsbD 7 := by
  have hsign : a.ssubOverflow b =
      (!a.getLsbD 7 && b.getLsbD 7 && (a - b).getLsbD 7 || a.getLsbD 7 && !b.getLsbD 7 && !(a - b).getLsbD 7) :=
    BitVec.ssubOverflow_eq a b
  have hdef : a.ssubOverflow b = true ↔ sval a - sval b < -128 ∨ sval a - sval b > 127 := by
    rw [sval, sval, BitVec.ssubOverflow, Bool.or_eq_true, decide_eq_true_iff, decide_eq_true_iff]
    omega
  rw [← hdef, hsign]
  cases a.getLsbD 7 <;> cases b.getLsbD 7 <;> simp

/-! ### The words of R71 as numbers -/

theorem toNat_encode_instrOf (m : Mnemonic) (r1 : RegIdx) (low : BitVec 6) :
    (encode (instrOf m r1 low)).toNat = (opcodeMap m).toNat * 4096 + r1.toNat * 64 + low.toNat := by
  rw [encode_instrOf, toNat_joinFields]

theorem decode_ofNat_fields (m : Mnemonic) (r1 : RegIdx) (low : BitVec 6) :
    decode (BitVec.ofNat 16 ((opcodeMap m).toNat * 4096 + r1.toNat * 64 + low.toNat)) = .ok (instrOf m r1 low) := by
  rw [← toNat_joinFields, BitVec.ofNat_toNat, BitVec.setWidth_eq, decode_joinFields]

/-- A word that decodes to the instruction made of some fields is the join of those fields. -/
theorem eq_joinFields_of_decode {w : Word} {m : Mnemonic} {r1 : RegIdx} {low : BitVec 6}
    (h : decode w = .ok (instrOf m r1 low)) : w = joinFields (opcodeMap m) r1 low := by
  obtain ⟨m', hm', hi⟩ := (decode_eq_ok _ _).mp h
  rw [← encode_instrOf, hi, encode_instrOf_fields ((mnemonicOf_eq_some _ _).mp hm')]

namespace Machine

/-! ### The shifts (R106, R107) -/

theorem shiftLeft_eq (a : Byte) (k : Nat) : shiftLeft a k = a <<< k := by
  rw [shiftLeft, trunc8_mul, trunc8_sval, trunc8_two_pow, BitVec.mul_twoPow_eq_shiftLeft]

theorem shiftRight_eq_sshiftRight (a : Byte) (k : Nat) : shiftRight a k = a.sshiftRight k := by
  rw [shiftRight, BitVec.sshiftRight, Int.shiftRight_eq_div_pow, Nat.cast_pow]
  rfl

/-- The integer division of SAR is the floor of the rational quotient. -/
theorem shiftRight_eq_floor (a : Byte) (k : Nat) : shiftRight a k = trunc8 ⌊(sval a : ℚ) / 2 ^ k⌋ := by
  have hfloor := Rat.floor_intCast_div_natCast (sval a) (2 ^ k)
  push_cast at hfloor
  rw [shiftRight, hfloor]

/-- From 7 places on, every bit of the result is the sign bit. -/
theorem shiftRight_of_le {k : Nat} (hk : 7 ≤ k) (a : Byte) :
    shiftRight a k = if a.getLsbD 7 = true then 0xFF else 0x00 := by
  have hbit : ∀ j < 8, (shiftRight a k).getLsbD j = a.getLsbD 7 := by
    intro j hj
    rw [shiftRight_eq_sshiftRight, BitVec.getLsbD_sshiftRight, decide_eq_false (by omega), Bool.not_false, Bool.true_and]
    split
    · rw [show k + j = 7 by omega]
    · rfl
  apply BitVec.eq_of_getLsbD_eq
  intro j hj
  rw [hbit j hj]
  cases a.getLsbD 7 with
  | true => exact (by decide : ∀ j < 8, true = (0xFF#8).getLsbD j) j hj
  | false => exact (BitVec.getLsbD_zero).symm

end Machine

end Sys2Proof
end

section
/-! PROOFS. What the arithmetic and logic instructions (spec/40_alu.md) leave: the flags each computation gives, the frame
of a written result, and the equal operands of an instruction that names one register twice. -/

namespace Sys2Proof.Machine

/-! ### The flags (R100 to R102) -/

theorem zeroOf_eq_decide (res : Byte) : zeroOf res = decide (res = 0x00) := rfl

theorem getFlag_addFlags (f : Flag) (mode : Config.CarryMode) (a b res sreg : Byte) :
    getFlag f (addFlags mode a b res sreg) =
      match f with
      | .C => carryOf mode a b
      | .V => signedOverflow (sval a + sval b)
      | .N => negativeOf res
      | .S => negativeOf res ^^ signedOverflow (sval a + sval b)
      | .Z => zeroOf res := by
  cases f <;> simp [addFlags, getFlag_signedFlags, getFlag_setFlag]

/-- The sum of two signed bytes is at most 254, so the literal reading of the carry never sets it. -/
theorem carryOf_signedLiteral (a b : Byte) : carryOf .signedLiteral a b = false := by
  obtain ⟨-, ha⟩ := sval_bounds a
  obtain ⟨-, hb⟩ := sval_bounds b
  exact decide_eq_false (by omega)

theorem getFlag_mulFlags (f : Flag) (mode : Config.MulSignMode) (res sreg : Byte) :
    getFlag f (mulFlags mode res sreg) =
      match f with
      | .N => negativeOf res
      | .Z => zeroOf res
      | .C => getFlag .C sreg
      | .V => getFlag .V sreg
      | .S => if mode = .update then negativeOf res ^^ getFlag .V sreg else getFlag .S sreg := by
  cases mode <;> cases f <;> simp [mulFlags, getFlag_setFlag, getFlag_logicFlags]

/-- Of all instructions only ADD writes C (R30, R100). -/
theorem carry_kept_of_ne_add {i : Instr} {s t : State} (hi : i.mnemonic ≠ .add) (he : exec i s = .next t) :
    getFlag .C t.sreg = getFlag .C s.sreg := by
  rw [sreg_of_exec he]
  exact getFlag_sregAfter_of_not_mem (by simp [mem_flagsWritten_iff, hi]) s

/-! ### The frame of a written result (R161, R162) -/

section Frame

variable {r1 : RegIdx} {res sreg : Byte} {s : State}

theorem readReg_result : readReg r1 (writeResult r1 res (setSreg sreg s)) = res := by
  rw [readReg_writeResult, if_pos rfl]

theorem sameRegsExcept_result : SameRegsExcept r1 s (writeResult r1 res (setSreg sreg s)) := by
  intro q hq
  rw [readReg_writeResult, if_neg hq, readReg_setSreg]

/-- Beside r1 and SREG, a written result reaches the latch only. -/
theorem frame_result :
    (writeResult r1 res (setSreg sreg s)).lat = { valid := true, value := res, dest := some r1 } ∧
      SameData s (writeResult r1 res (setSreg sreg s)) ∧ SameControl s (writeResult r1 res (setSreg sreg s)) ∧
      (writeResult r1 res (setSreg sreg s)).imem = s.imem :=
  ⟨rfl, fun _ => rfl, ⟨rfl, rfl, rfl, rfl, rfl, rfl, rfl, rfl⟩, rfl⟩

/-- N and Z are the only bits of SREG that EOR, ANDI, SAL and SAR write. -/
theorem sameFlagsExcept_logicResult : SameFlagsExcept [.N, .Z] s (writeLogicResult r1 res s) := by
  refine ⟨fun f hf => ?_, reservedBits_logicFlags res s.sreg⟩
  refine (getFlag_logicFlags f res s.sreg).trans ?_
  cases f with
  | C | V | S => rfl
  | N | Z => simp at hf

end Frame

/-- Everything an instruction that writes a logic result does: the common part of R103 and R105 to R107. -/
theorem exec_logicResult {i : Instr} {r1 : RegIdx} {res : Byte} {s : State}
    (he : exec i s = .next (writeLogicResult r1 res s)) :
    ∃ t, exec i s = .next t ∧ readReg r1 t = res ∧ SameRegsExcept r1 s t ∧
      getFlag .N t.sreg = res.getLsbD 7 ∧
      getFlag .Z t.sreg = decide (res = 0x00) ∧
      SameFlagsExcept [.N, .Z] s t ∧
      t.lat = { valid := true, value := res, dest := some r1 } ∧
      SameData s t ∧ SameControl s t ∧ t.imem = s.imem :=
  ⟨_, he, readReg_result, sameRegsExcept_result, getFlag_logicFlags .N .., getFlag_logicFlags .Z ..,
    sameFlagsExcept_logicResult, frame_result⟩

/-! ### One register named twice -/

/-- In a state of the invariant both operands of an instruction that reads one register twice are that register's
value (R182, item 5). -/
theorem operandA_eq_operandB_of_same {m : Mnemonic} (h1 : readsR1 m = true) (h2 : readsR2 m = true) {q : RegIdx}
    {s : State} {r : DeRecord} (hi : Inv s) (hde : s.de = some r) (hd : decode r.word = .ok (instrOf m q q)) :
    operandA q s = operandB q s := by
  obtain ⟨hok, -, hcurrent, -⟩ := hi.de r hde
  have hw := eq_joinFields_of_decode hd
  have hr1 : r.r1 = q := by rw [hok.r1, hw, r1Field_joinFields]
  have hop : mnemonicOf r.op = some m := by rw [hok.op, hw, opField_joinFields, mnemonicOf_opcodeMap]
  have hfmt : r.fmt = .r := by
    rw [hok.fmt, ← hok.op, formatOf_of_mnemonicOf hop]
    revert h2
    cases m <;> decide
  have hr2 : r.r2 = some q := by rw [hok.r2, if_pos hfmt, hw, lowField_joinFields]
  obtain ⟨ha, hb⟩ := hcurrent m hop
  calc operandA q s = readReg q s := hr1 ▸ ha h1
    _ = operandB q s := (hb h2 q hr2).symm

/-- The difference of equal operands is 0x00, without overflow. -/
theorem exec_sub_of_eq {r1 r2 : RegIdx} {s t : State} (he : exec (.sub r1 r2) s = .next t)
    (hab : operandA r1 s = operandB r2 s) :
    readReg r1 t = 0x00 ∧ getFlag .V t.sreg = false ∧ getFlag .N t.sreg = false ∧ getFlag .S t.sreg = false ∧
      getFlag .Z t.sreg = true := by
  rw [exec_sub, hab, Int.sub_self] at he
  obtain rfl : _ = t := Host.Outcome.next.inj he
  refine ⟨readReg_result, ?_⟩
  simp only [writeResult_sreg, setSreg_sreg, subFlags, getFlag_signedFlags, Int.sub_self]
  decide

/-- The exclusive or of equal operands is 0x00. -/
theorem exec_eor_of_eq {r1 r2 : RegIdx} {s t : State} (he : exec (.eor r1 r2) s = .next t)
    (hab : operandA r1 s = operandB r2 s) : readReg r1 t = 0x00 ∧ getFlag .Z t.sreg = true := by
  rw [exec_eor, hab, BitVec.xor_self] at he
  obtain rfl : _ = t := Host.Outcome.next.inj he
  exact ⟨readReg_result, getFlag_logicFlags .Z ..⟩

end Sys2Proof.Machine
end

section
/-! PROOFS. The statements about the arithmetic and logic instructions (spec/40_alu.md), each a short use of the lemmas
above. -/

namespace Sys2Proof.Machine

/-! ### Tier 2 -/

/-- Settles O8: both readings of the operands truncate to the bytes' sum, and under R182 r1 = r2 gives equal ones. -/
theorem addWritesSumFlagsAndLatch : Obligations.AddWritesSumFlagsAndLatch := by
  refine ⟨fun r1 r2 s => ?completes, fun a b => ?forms, fun a b res sreg => ?carryModes,
    fun q s t r hi hde hd he => ?twice, fun i s t hi he => carry_kept_of_ne_add hi he, toNat_encode_instrOf .add⟩
  case completes =>
    exact ⟨_, exec_add r1 r2 s, readReg_result, sameRegsExcept_result, getFlag_addFlags .C ..,
      getFlag_addFlags .V .., getFlag_addFlags .N .., by simp [getFlag_addFlags], getFlag_addFlags .Z ..,
      reservedBits_addFlags .., frame_result⟩
  case forms =>
    have hu : trunc8 (uval a + uval b) = a + b := by rw [trunc8_add, trunc8_uval, trunc8_uval]
    have hs : trunc8 (sval a + sval b) = a + b := by rw [trunc8_add, trunc8_sval, trunc8_sval]
    exact ⟨hu.trans hs.symm, by rw [hu, decide_eq_true_iff, add_overflows_iff]⟩
  case carryModes =>
    have hc := getFlag_addFlags .C .signedLiteral a b res sreg
    exact ⟨hc, hc.trans (carryOf_signedLiteral a b)⟩
  case twice =>
    have hab := operandA_eq_operandB_of_same (m := .add) rfl rfl hi hde hd
    obtain rfl : _ = t := Host.Outcome.next.inj ((exec_add q q s).symm.trans he)
    exact ⟨hab, by rw [readReg_result, ← hab, Int.two_mul]⟩

/-- Settles O9: both readings of the operands truncate to the bytes' difference, which is 0x00 for equal operands. -/
theorem subWritesDifferenceFlagsAndLatch : Obligations.SubWritesDifferenceFlagsAndLatch := by
  refine ⟨fun r1 r2 s => ?completes, fun a b => ?forms, fun q s t r hi hde hd he => ?twice, toNat_encode_instrOf .sub⟩
  case completes =>
    exact ⟨_, exec_sub r1 r2 s, readReg_result, sameRegsExcept_result, getFlag_signedFlags .C ..,
      getFlag_signedFlags .V .., getFlag_signedFlags .N .., by simp [subFlags, getFlag_signedFlags],
      getFlag_signedFlags .Z .., reservedBits_subFlags .., frame_result⟩
  case forms =>
    have hu : trunc8 ((uval a : Int) - uval b) = a - b := by rw [trunc8_sub, trunc8_uval, trunc8_uval]
    have hs : trunc8 (sval a - sval b) = a - b := by rw [trunc8_sub, trunc8_sval, trunc8_sval]
    exact ⟨hs.trans hu.symm, by rw [hs, decide_eq_true_iff, sub_overflows_iff]⟩
  case twice => exact exec_sub_of_eq he (operandA_eq_operandB_of_same (m := .sub) rfl rfl hi hde hd)

/-- Settles O10: both readings of the operands truncate to the bytes' product. -/
theorem mulWritesProductFlagsAndLatch : Obligations.MulWritesProductFlagsAndLatch := by
  refine ⟨fun r1 r2 s => ?completes, fun res sreg f => ?keepMode, fun a b => ⟨?forms, sval_mul_bounds a b⟩,
    fun q s t r hi hde hd he => ?twice, toNat_encode_instrOf .mul⟩
  case completes =>
    exact ⟨_, exec_mul r1 r2 s, readReg_result, sameRegsExcept_result, getFlag_mulFlags .C ..,
      getFlag_mulFlags .V .., getFlag_mulFlags .N .., by simp [getFlag_mulFlags, Config.mulSignMode],
      getFlag_mulFlags .Z .., reservedBits_mulFlags .., frame_result⟩
  case keepMode =>
    refine (getFlag_mulFlags f .keep res sreg).trans ?_
    cases f <;> rfl
  case forms => rw [trunc8_mul, trunc8_mul, trunc8_sval, trunc8_sval, trunc8_uval, trunc8_uval]
  case twice =>
    have hab := operandA_eq_operandB_of_same (m := .mul) rfl rfl hi hde hd
    obtain rfl : _ = t := Host.Outcome.next.inj ((exec_mul q q s).symm.trans he)
    rw [readReg_result, ← hab]

/-- Settles O14: the truncated product with 2^k is the logical shift. -/
theorem salWritesLeftShiftFlagsAndLatch : Obligations.SalWritesLeftShiftFlagsAndLatch := by
  refine ⟨fun r1 imm s => exec_logicResult (exec_sal r1 imm s), fun a k => ?forms,
    fun r1 f => ⟨decode_ofNat_fields .sal r1 f, BitVec.toNat_setWidth_of_le (by decide)⟩⟩
  have hs : trunc8 (sval a * 2 ^ k) = a <<< k := shiftLeft_eq a k
  refine ⟨by rw [trunc8_mul, trunc8_mul, trunc8_sval, trunc8_uval], hs, fun hk => ?_⟩
  exact hs.trans (BitVec.shiftLeft_eq_zero hk)

/-- Settles O15: the rational floor is the integer division, which is the bit vector's arithmetic shift. -/
theorem sarWritesRightShiftFlagsAndLatch : Obligations.SarWritesRightShiftFlagsAndLatch := by
  refine ⟨fun r1 imm s => ?completes, fun a k => ⟨shiftRight_eq_sshiftRight a k, ?zero,
    fun hk => shiftRight_of_le hk a⟩, fun r1 f => ⟨decode_ofNat_fields .sar r1 f, BitVec.toNat_setWidth_of_le (by decide)⟩⟩
  case completes =>
    simp only [← shiftRight_eq_floor]
    exact exec_logicResult (exec_sar r1 imm s)
  case zero => rw [shiftRight_eq_sshiftRight, BitVec.sshiftRight_zero]

/-! ### Tier 1 -/

/-- Settles O11: equal operands cancel, and in a state of the invariant r1 = r2 gives equal operands. -/
theorem eorWritesExclusiveOrFlagsAndLatch : Obligations.EorWritesExclusiveOrFlagsAndLatch := by
  refine ⟨fun r1 r2 s => ?completes, fun q s t r hi hde hd he => ?twice, toNat_encode_instrOf .eor⟩
  case completes =>
    obtain ⟨t, he, hreg, hregs, hN, hZ, hflags, hlat, hdata, hctl, himem⟩ := exec_logicResult (exec_eor r1 r2 s)
    exact ⟨t, he, hreg, hregs, hN, hZ, hflags, hlat, hdata, hctl, himem, exec_eor_of_eq he⟩
  case twice => exact exec_eor_of_eq he (operandA_eq_operandB_of_same (m := .eor) rfl rfl hi hde hd)

/-- Settles O12: MOVI is a written result with SREG as it was. -/
theorem moviWritesImmediateAndLatch : Obligations.MoviWritesImmediateAndLatch :=
  ⟨fun r1 imm s => ⟨_, exec_movi r1 imm s, readReg_result (sreg := s.sreg), sameRegsExcept_result (sreg := s.sreg), rfl,
    frame_result (sreg := s.sreg)⟩, decode_ofNat_fields .movi⟩

/-- Settles O13: a sign-extended field has the field's bit 5 at both bits 6 and 7. -/
theorem andiWritesAndFlagsAndLatch : Obligations.AndiWritesAndFlagsAndLatch := by
  refine ⟨fun r1 imm s => exec_logicResult (exec_andi r1 imm s), fun r1 f => ⟨decode_ofNat_fields .andi r1 f, ?_⟩⟩
  rw [BitVec.getLsbD_signExtend, BitVec.getLsbD_signExtend]
  rfl

end Sys2Proof.Machine
end

section
/-! PROOFS. The control transfers (spec/41_control.md): their targets as numbers, the frame of a taken branch, the fetch
from a target outside instruction memory, and the equal operands of a BR that names one register twice. -/

namespace Sys2Proof.Machine

/-! ### The targets as numbers (R130, R131) -/

theorem toNat_relativeTarget (pc1 : Word) (imm : Byte) :
    ((relativeTarget pc1 imm).toNat : Int) = (pc1.toNat + sval imm) % 65536 := by
  rw [relativeTarget, BitVec.toNat_ofInt]
  exact Int.toNat_of_nonneg (Int.emod_nonneg _ (by decide))

theorem toNat_pairTarget (v1 v2 : Byte) : (pairTarget v1 v2).toNat = uval v1 * 256 + uval v2 := by
  rw [pairTarget, BitVec.toNat_append, ← Nat.shiftLeft_add_eq_or_of_lt v2.isLt, Nat.shiftLeft_eq]

/-- The low byte is less than 256, so the high byte alone decides whether BR stays inside instruction memory. -/
theorem pairTarget_outside_iff (v1 v2 : Byte) : 1024 ≤ (pairTarget v1 v2).toNat ↔ 4 ≤ uval v1 := by
  have h2 : uval v2 < 256 := v2.isLt
  rw [toNat_pairTarget]
  omega

/-! ### The record a branch reads (R34, R35) -/

section Record

variable {s : State} {r : DeRecord} (hde : s.de = some r)

include hde

theorem decodedV1_of_record (q : RegIdx) : decodedV1 q s = r.v1 := by rw [decodedV1, hde]

theorem decodedV2_of_record (q : RegIdx) : decodedV2 q s = r.v2 := by rw [decodedV2, hde]

theorem recordPc1_of_record : recordPc1 s = r.pc1 := by rw [recordPc1, hde]

end Record

/-- Decode reads one register once: a BR that names it twice carries equal values (R81, R131). -/
theorem decodedV1_eq_decodedV2_of_br_same {q : RegIdx} {s : State} {r : DeRecord} (hi : Inv s) (hde : s.de = some r)
    (hd : decode r.word = .ok (.br q q)) : decodedV1 q s = decodedV2 q s := by
  obtain ⟨hok, -⟩ := hi.de r hde
  have hw : r.word = joinFields (opcodeMap .br) q q := eq_joinFields_of_decode (m := .br) hd
  have hr1 : r.r1 = q := by rw [hok.r1, hw, r1Field_joinFields]
  have hfmt : r.fmt = .r := by
    rw [hok.fmt, hw, opField_joinFields]
    exact formatOf_of_mnemonicOf (mnemonicOf_opcodeMap .br)
  have hr2 : r.r2 = some r.r1 := by rw [hok.r2, if_pos hfmt, hw, lowField_joinFields, hr1]
  rw [decodedV1_of_record hde, decodedV2_of_record hde, hok.same hr2]

/-! ### A taken branch, and the fetch after it -/

/-- A taken branch empties both slots and starts the stall, and beside the PC it changes nothing else (R163, R164). -/
theorem frame_takeBranch (target : Word) (s : State) :
    (takeBranch target s).fd = none ∧ (takeBranch target s).de = none ∧ (takeBranch target s).dstall = 1 ∧
      (takeBranch target s).estall = 2 ∧ SameRegs s (takeBranch target s) ∧ SameData s (takeBranch target s) ∧
      (takeBranch target s).sreg = s.sreg ∧ (takeBranch target s).lat = s.lat ∧
      (takeBranch target s).stop = s.stop ∧ (takeBranch target s).cycle = s.cycle ∧
      (takeBranch target s).status = s.status ∧ (takeBranch target s).imem = s.imem :=
  ⟨rfl, rfl, rfl, rfl, fun _ => rfl, fun _ => rfl, rfl, rfl, rfl, rfl, rfl, rfl⟩

/-- A running core that is not blocked faults on a PC outside instruction memory (R152, R200). -/
theorem step_of_fetch_outside {s : State} (hs : s.status = .running) (hstop : s.stop.val < 3) (hpc : 1024 ≤ s.pc.toNat) :
    step s = .next (raiseFatal (.outOfBounds .fetch s.pc.toNat) s) := by
  have hf : fetchStage s = .error (.outOfBounds .fetch s.pc.toNat) := by
    rw [fetchStage_eq, if_neg (by omega), if_neg (by omega)]
  simp only [step, clockEdge, hs]
  exact cycleStep_of_fetchError hf

end Sys2Proof.Machine
end

section
/-! PROOFS. The statements about the control transfers (spec/41_control.md), each a short use of the lemmas above. -/

namespace Sys2Proof.Machine

/-- Settles O16: a split on the value Decode read; the fetch that faults is the next cycle's. -/
theorem beqzBranchesWhenTheDecodedValueIsZero : Obligations.BeqzBranchesWhenTheDecodedValueIsZero := by
  refine ⟨fun r1 imm s => ⟨fun hv => ?taken, fun hv => ?notTaken⟩,
    fun r1 s r hde => ⟨decodedV1_of_record hde r1, recordPc1_of_record hde⟩, fun s => step_of_fetch_outside,
    decode_ofNat_fields .beqz⟩
  case taken =>
    have he : exec (.beqz r1 imm) s = .next (takeBranch (relativeTarget (recordPc1 s) imm) s) := by
      rw [exec_beqz, if_pos hv]
    exact ⟨_, he, toNat_relativeTarget _ _, frame_takeBranch _ s⟩
  case notTaken => rw [exec_beqz, if_neg hv]

/-- Settles O17: the target is read as high byte * 256 + low byte, which is 257 times the value when r1 = r2. -/
theorem brBranchesToTheDecodedRegisterPair : Obligations.BrBranchesToTheDecodedRegisterPair := by
  refine ⟨fun r1 r2 s => ⟨_, exec_br r1 r2 s, toNat_pairTarget _ _, frame_takeBranch _ s⟩,
    fun r1 r2 s r hde => ⟨decodedV1_of_record hde r1, decodedV2_of_record hde r2⟩, fun r1 r2 s t he => ?outside,
    fun s => step_of_fetch_outside, fun q s t r hi hde hd he => ?twice, toNat_encode_instrOf .br⟩
  case outside =>
    obtain rfl : _ = t := Host.Outcome.next.inj ((exec_br r1 r2 s).symm.trans he)
    exact pairTarget_outside_iff _ _
  case twice =>
    obtain rfl : _ = t := Host.Outcome.next.inj ((exec_br q q s).symm.trans he)
    rw [takeBranch_pc, toNat_pairTarget, ← decodedV1_eq_decodedV2_of_br_same hi hde hd]
    omega

end Sys2Proof.Machine
end

section
/-! PROOFS. The load and the store (spec/42_loadstore.md): the operands of their records, what they leave, and the record
Decode puts behind a producer. -/

namespace Sys2Proof.Machine

/-! ### The operands of a well-made record (R35, R81) -/

/-- The instruction of a well-made record has the record's opcode and r1. -/
theorem RecordOk.instr_of_decode {r : DeRecord} {i : Instr} (hok : RecordOk r) (hd : decode r.word = .ok i) :
    mnemonicOf r.op = some i.mnemonic ∧ i = instrOf i.mnemonic r.r1 (lowField r.word) := by
  obtain ⟨m, hm, rfl⟩ := (decode_eq_ok _ _).mp hd
  rw [mnemonic_instrOf, hok.op, hok.r1]
  exact ⟨hm, rfl⟩

/-- The record of a LDR names a producer, the loaded register and the zero-extended address. -/
theorem RecordOk.of_decode_ldr {r : DeRecord} {a : RegIdx} {imm : Byte} (hok : RecordOk r)
    (hd : decode r.word = .ok (.ldr a imm)) : isProducer r.op = true ∧ r.r1 = a ∧ r.imm = some imm := by
  obtain ⟨hm, hi⟩ := hok.instr_of_decode hd
  obtain ⟨rfl, rfl⟩ := Instr.ldr.inj hi
  have hfmt : r.fmt = .i := by rw [hok.fmt, ← hok.op, formatOf_of_mnemonicOf hm]; rfl
  refine ⟨(isProducer_iff _).mpr ⟨_, hm, rfl⟩, rfl, ?_⟩
  rw [hok.imm, hfmt, ← hok.op, extendImm_of_mnemonicOf hm]
  rfl

/-- In a state of the invariant operand `a` of a STR is its register's current value (R141; R182, item 5). -/
theorem operandA_of_str {s : State} {r : DeRecord} {a : RegIdx} {imm : Byte} (hi : Inv s) (hde : s.de = some r)
    (hd : decode r.word = .ok (.str a imm)) : operandA a s = readReg a s := by
  obtain ⟨hok, -, hcurrent, -⟩ := hi.de r hde
  obtain ⟨hm, hinstr⟩ := hok.instr_of_decode hd
  obtain ⟨rfl, -⟩ := Instr.str.inj hinstr
  obtain ⟨hcurrentA, -⟩ := hcurrent _ hm
  exact hcurrentA rfl

/-- In a state of the invariant a LDR with the memory hazard flag loads the latch's value (R140; R182, item 6). -/
theorem cell_of_memstall {s : State} {r : DeRecord} {a : RegIdx} {imm : Byte} (hi : Inv s) (hde : s.de = some r)
    (hd : decode r.word = .ok (.ldr a imm)) (hflag : r.memstall = true) : readByte s (uval imm) = s.lat.value := by
  obtain ⟨hok, -, -, hbacked⟩ := hi.de r hde
  obtain ⟨-, -, himm⟩ := hok.of_decode_ldr hd
  exact (hbacked hflag imm himm).symm

/-! ### The frame of a store (R141, R162) -/

/-- Beside one data cell, a recorded store reaches the latch only. -/
theorem frame_store (b : Nat) (v : Byte) (s : State) :
    readByte (recordStore v (writeByte b v s)) b = v ∧ SameDataExcept b s (recordStore v (writeByte b v s)) ∧
      SameRegs s (recordStore v (writeByte b v s)) ∧ (recordStore v (writeByte b v s)).sreg = s.sreg ∧
      (recordStore v (writeByte b v s)).lat = { valid := true, value := v, dest := none } ∧
      SameControl s (recordStore v (writeByte b v s)) ∧ (recordStore v (writeByte b v s)).imem = s.imem := by
  refine ⟨?_, fun c hc => ?_, fun _ => rfl, rfl, rfl, ⟨rfl, rfl, rfl, rfl, rfl, rfl, rfl, rfl⟩, rfl⟩
  · rw [readByte_recordStore, readByte_writeByte, if_pos rfl]
  · rw [readByte_recordStore, readByte_writeByte, if_neg hc]

/-! ### The record behind a producer (R165, R172) -/

theorem FlushFsmOk.dstall_eq_zero {s : State} {r : DeRecord} (h : FlushFsmOk s) (hde : s.de = some r) : s.dstall = 0 := by
  rcases h with ⟨h0, -⟩ | ⟨-, -, -, hn⟩ | ⟨h0, -⟩
  · exact h0
  · simp [hn] at hde
  · exact h0

/-- Behind an instruction that is no branch, the next D→E slot holds the record Decode makes of the F→D slot's word, with
the hazard flags for that instruction (R156, R165, R174). -/
theorem decoded_record_is_next {s t : State} {r : DeRecord} {i : Instr} {g : FdRecord} (hi : Inv s)
    (hs : s.status = .running) (hde : s.de = some r) (hd : decode r.word = .ok i) (hb : isBranch i.mnemonic = false)
    (h : step s = .next t) (hn : NotFaulted t) (hfd : s.fd = some g) :
    t.estall = 0 ∧ t.de = some (hazardUnit (decodeRecord g.word g.pc1 s) (some r)) := by
  have h0 := hi.fsm.estall_eq_zero hde
  have hd0 := hi.fsm.dstall_eq_zero hde
  obtain ⟨hest, q, htde, -⟩ := decoded_word_is_next hs h0 hde hd hb h hn hd0 hfd
  have hdec : decodeStage s = some (hazardUnit (decodeRecord g.word g.pc1 s) (some r)) :=
    hde ▸ decodeStage_eq_some.mpr ⟨hd0, g, hfd, rfl⟩
  refine ⟨hest, ?_⟩
  rcases step_running_cases hs h with ⟨x, rfl⟩ | ⟨f, e, -, he, hr, -, -, rfl⟩
  · exact absurd rfl (hn x)
  · rcases commit_slots hi.fsm he hr f with ⟨-, hflushed, -⟩ | ⟨-, hfilled, -⟩
    · simp [hflushed] at htde
    · exact hfilled.trans hdec

section Forward

variable {ex : DeRecord} (hp : isProducer ex.op = true) {w : Word} {i : Instr} (hd : decode w = .ok i) (pc1 : Word)
  (s : State)

include hp hd

/-- An instruction behind the producer of the r1 it reads is flagged to take it from the latch (R172, rule 3). -/
theorem fwd1_behind_producer (hreads : readsR1 i.mnemonic = true) (hreg : r1Field w = ex.r1) :
    (hazardUnit (decodeRecord w pc1 s) (some ex)).fwd1 = true := by
  obtain ⟨m, hm, rfl⟩ := (decode_eq_ok w i).mp hd
  rw [mnemonic_instrOf] at hreads
  have hop : (decodeRecord w pc1 s).op = opcodeMap m := ((mnemonicOf_eq_some _ _).mp hm).symm
  obtain ⟨hbr, hcons⟩ := consumes_of_readsR1 hreads
  exact hazardUnit_fwd1_iff.mpr ⟨hop ▸ hbr, ex, rfl, hp, hop ▸ hcons, hreg⟩

/-- An instruction behind the producer of the r2 it reads is flagged to take it from the latch (R172, rule 4). -/
theorem fwd2_behind_producer (hreads : readsR2 i.mnemonic = true) (hreg : lowField w = ex.r1) :
    (hazardUnit (decodeRecord w pc1 s) (some ex)).fwd2 = true := by
  obtain ⟨m, hm, rfl⟩ := (decode_eq_ok w i).mp hd
  rw [mnemonic_instrOf] at hreads
  have hop : (decodeRecord w pc1 s).op = opcodeMap m := ((mnemonicOf_eq_some _ _).mp hm).symm
  have hf : m.format = .r := by
    revert hreads
    cases m <;> decide
  obtain ⟨hfmt, -, hr2, -⟩ := decodeRecord_of_mnemonic_r hm hf pc1 s
  exact hazardUnit_fwd2_iff.mpr ⟨hop ▸ not_branch_of_readsR2 hreads, ex, rfl, hp, hfmt, hr2.trans (congrArg some hreg)⟩

end Forward

end Sys2Proof.Machine
end

section
/-! PROOFS. The statements about the load and the store (spec/42_loadstore.md), each a short use of the lemmas above. -/

namespace Sys2Proof.Machine

/-- Settles O18: the cycle that performs a LDR leaves the loaded byte in the latch, and behind it the record of the next
word with its forward flags set, which read that latch. -/
theorem ldrLoadsTheDataCell : Obligations.LdrLoadsTheDataCell := by
  refine ⟨fun r1 imm s => ?completes, fun r1 imm s r => cell_of_memstall, ?useRightAfter,
    fun r1 f => ⟨decode_ofNat_fields .ldr r1 f, BitVec.toNat_setWidth_of_le (by decide)⟩⟩
  case completes =>
    exact ⟨_, exec_ldr r1 imm s, readReg_result (sreg := s.sreg), sameRegsExcept_result (sreg := s.sreg), rfl,
      frame_result (sreg := s.sreg)⟩
  case useRightAfter =>
    intro s t e f a imm i hi hs hde hldr hfd hd _ h hn
    obtain ⟨hok, -⟩ := hi.de e hde
    obtain ⟨hp, hdest, -⟩ := hok.of_decode_ldr hldr
    obtain ⟨hest, htde⟩ := decoded_record_is_next hi hs hde hldr rfl h hn hfd
    have hlat : t.lat.value = readByte s (uval imm) := by
      obtain ⟨g, e', hx, rfl⟩ := step_performs hs (hi.fsm.estall_eq_zero hde) hde hldr h hn
      obtain rfl : _ = e' := Host.Outcome.next.inj ((exec_ldr a imm s).symm.trans hx)
      rw [commit_lat, writeResult_lat]
    refine ⟨hest, _, htde, hazardUnit_word _ _, fun hreads hreg => ?_, fun hreads hreg => ?_⟩
    · have hfwd := fwd1_behind_producer hp hd f.pc1 s hreads (hreg.trans hdest.symm)
      exact ⟨hfwd, by rw [operandA_of_de htde, if_pos hfwd, hlat]⟩
    · have hfwd := fwd2_behind_producer hp hd f.pc1 s hreads (hreg.trans hdest.symm)
      exact ⟨hfwd, by rw [operandB_of_de htde, if_pos hfwd, hlat]⟩

/-- Settles O19: the store's frame, and R182's item 5 for its operand. -/
theorem strStoresOneByte : Obligations.StrStoresOneByte :=
  ⟨fun r1 imm s => ⟨_, exec_str r1 imm s, frame_store _ _ s⟩, fun _ _ _ _ => operandA_of_str,
    fun r1 f => ⟨decode_ofNat_fields .str r1 f, BitVec.toNat_setWidth_of_le (by decide)⟩⟩

end Sys2Proof.Machine
end

section
/-! PROOFS. The cycle (spec/45_pipeline.md): Fetch's answers, the branch a cycle takes, and what a cycle without a fatal
error leaves in the PC, the slots and the counters. -/

namespace Sys2Proof.Machine

/-! ### Fetch's answers (R152, R153) -/

section Fetch

variable {s : State}

theorem fetchStage_of_blocked (hstop : 3 ≤ s.stop.val) :
    fetchStage s = .ok { record := none, pc := s.pc, stop := s.stop } := by
  rw [fetchStage_eq, if_pos hstop]

theorem fetchStage_of_outside (hstop : s.stop.val < 3) (hpc : 1024 ≤ s.pc.toNat) :
    fetchStage s = .error (.outOfBounds .fetch s.pc.toNat) := by
  rw [fetchStage_eq, if_neg hstop.not_ge, if_neg hpc.not_gt]

theorem fetchStage_of_sentinel (hstop : s.stop.val < 3) (hpc : s.pc.toNat < 1024) (hw : wordAtPc s = 0xFFFF) :
    fetchStage s = .ok { record := none, pc := s.pc, stop := s.stop + 1 } := by
  rw [fetchStage_eq, if_neg hstop.not_ge, if_pos hpc, if_pos hw]

theorem fetchStage_of_word (hstop : s.stop.val < 3) (hpc : s.pc.toNat < 1024) (hw : wordAtPc s ≠ 0xFFFF) :
    fetchStage s = .ok { record := some { word := wordAtPc s, pc1 := s.pc + 1 }, pc := s.pc + 1, stop := 0 } := by
  rw [fetchStage_eq, if_neg hstop.not_ge, if_pos hpc, if_neg hw]

/-- Fetch answers with no error while blocked and at every PC inside instruction memory. -/
theorem exists_fetchStage_eq_ok (hpc : s.pc.toNat < 1024) : ∃ f, fetchStage s = .ok f := by
  by_cases hstop : s.stop.val < 3
  · by_cases hw : wordAtPc s = 0xFFFF
    · exact ⟨_, fetchStage_of_sentinel hstop hpc hw⟩
    · exact ⟨_, fetchStage_of_word hstop hpc hw⟩
  · exact ⟨_, fetchStage_of_blocked (not_lt.mp hstop)⟩

/-- A Fetch that is not blocked and answers has read inside instruction memory. -/
theorem pc_lt_of_fetchStage_ok {f : FetchResult} (hf : fetchStage s = .ok f) (hstop : s.stop.val < 3) :
    s.pc.toNat < 1024 := by
  by_contra hpc
  rw [fetchStage_of_outside hstop (not_lt.mp hpc)] at hf
  cases hf

/-- The PC moves on exactly with a record. -/
theorem fetchStage_pc {f : FetchResult} (hf : fetchStage s = .ok f) :
    f.pc = if f.record.isSome then s.pc + 1 else s.pc := by
  by_cases hstop : s.stop.val < 3
  · have hpc := pc_lt_of_fetchStage_ok hf hstop
    by_cases hw : wordAtPc s = 0xFFFF
    · obtain rfl := Except.ok.inj ((fetchStage_of_sentinel hstop hpc hw).symm.trans hf)
      rfl
    · obtain rfl := Except.ok.inj ((fetchStage_of_word hstop hpc hw).symm.trans hf)
      rfl
  · obtain rfl := Except.ok.inj ((fetchStage_of_blocked (not_lt.mp hstop)).symm.trans hf)
    rfl

/-- Below the threshold the stop counter counts up by one (R167). -/
theorem val_stop_add_one (hstop : s.stop.val < 3) : (s.stop + 1).val = s.stop.val + 1 :=
  Fin.val_add_one_of_lt hstop

end Fetch

/-! ### The branch a cycle takes (R158 to R161) -/

/-- A stalled or idle Execute performs no instruction (R158, R159). -/
theorem executing_eq_none {s : State} (h : s.estall ≠ 0 ∨ s.de = none) : executing s = none := by
  refine Option.eq_none_iff_forall_ne_some.mpr fun i hi => ?_
  obtain ⟨r, h0, hde, -⟩ := executing_eq_some.mp hi
  rcases h with h | h
  · exact h h0
  · simp [h] at hde

theorem takenTarget_of_executing {s : State} {i : Instr} (hi : executing s = some i) :
    takenTarget s = branchTargetOf i s := by
  rw [takenTarget, hi, Option.bind_some]

theorem takenTarget_of_executing_none {s : State} (hi : executing s = none) : takenTarget s = none := by
  rw [takenTarget, hi, Option.bind_none]

/-- An instruction with a target takes the branch (R130, R131). -/
theorem exec_of_target {i : Instr} {s : State} {target : Word} (ht : branchTargetOf i s = some target) :
    exec i s = .next (takeBranch target s) := by
  cases i with
  | beqz r1 imm =>
    rw [branchTargetOf, Option.ite_none_right_eq_some, Option.some.injEq] at ht
    obtain ⟨hv, rfl⟩ := ht
    rw [exec_beqz, if_pos hv]
  | br r1 r2 =>
    obtain rfl := Option.some.inj ht
    exact exec_br r1 r2 s
  | add | sub | mul | movi | andi | eor | sal | sar | ldr | str => cases ht

/-- A branch without a target, a BEQZ not taken, has no effect (R130). -/
theorem exec_of_untaken {i : Instr} {s : State} (hb : isBranch i.mnemonic = true) (ht : branchTargetOf i s = none) :
    exec i s = .next s := by
  cases i with
  | beqz r1 imm =>
    rw [branchTargetOf, ite_eq_right_iff] at ht
    rw [exec_beqz, if_neg fun hv => Option.some_ne_none _ (ht hv)]
  | br r1 r2 => cases ht
  | add | sub | mul | movi | andi | eor | sal | sar | ldr | str => cases hb

/-- An instruction without a target leaves the PC, the slots, the counters and the status (R161). -/
theorem sameControl_of_no_target {i : Instr} {s e : State} (ht : branchTargetOf i s = none) (he : exec i s = .next e) :
    SameControl s e := by
  rcases exec_cases i s with ⟨r1, v, f, -, hx, -⟩ | ⟨r1, imm, -, hx⟩ | ⟨target, hsome, -⟩ | ⟨-, -, hx⟩
  case inr.inr.inl => simp [ht] at hsome
  all_goals
    obtain rfl := Host.Outcome.next.inj (hx.symm.trans he)
    exact ⟨rfl, rfl, rfl, rfl, rfl, rfl, rfl, rfl⟩

/-- A branch records no result (R162). -/
theorem exec_lat_of_branch {i : Instr} {s e : State} (hb : isBranch i.mnemonic = true) (he : exec i s = .next e) :
    e.lat = s.lat := by
  cases ht : branchTargetOf i s with
  | some target =>
    obtain rfl := Host.Outcome.next.inj ((exec_of_target ht).symm.trans he)
    rfl
  | none =>
    obtain rfl := Host.Outcome.next.inj ((exec_of_untaken hb ht).symm.trans he)
    rfl

/-- No instruction writes the status (R161). -/
theorem exec_status {i : Instr} {s e : State} (he : exec i s = .next e) : e.status = s.status := by
  cases ht : branchTargetOf i s with
  | some target =>
    obtain rfl := Host.Outcome.next.inj ((exec_of_target ht).symm.trans he)
    rfl
  | none =>
    obtain ⟨-, -, -, -, -, -, -, hst⟩ := sameControl_of_no_target ht he
    exact hst

/-- The commit's test for a taken branch finds exactly the branches Execute takes, and any other cycle leaves one execute
stall less than there was (R158, R164). -/
theorem executeStage_taken_cases {s e : State} (he : executeStage s = .next e) (hr : e.status = .running) :
    (∃ target, takenTarget s = some target ∧ e = takeBranch target s ∧ branchTaken s e = true) ∨
      (takenTarget s = none ∧ branchTaken s e = false ∧ e.estall.val = s.estall.val - 1) := by
  rcases executeStage_performs he hr with ⟨i, hi, hx⟩ | ⟨h0, hde, rfl⟩ | ⟨h0, rfl⟩
  case inl =>
    obtain ⟨r, h0, hde, -⟩ := executing_eq_some.mp hi
    rw [takenTarget_of_executing hi]
    cases ht : branchTargetOf i s with
    | some target =>
      obtain rfl := Host.Outcome.next.inj ((exec_of_target ht).symm.trans hx)
      exact .inl ⟨target, rfl, rfl, by simp [branchTaken, executePops, h0, hde]⟩
    | none =>
      obtain ⟨-, -, -, -, hest, -⟩ := sameControl_of_no_target ht hx
      exact .inr ⟨rfl, by simp [branchTaken, hest, h0], by simp [hest, h0]⟩
  case inr.inl =>
    exact .inr ⟨takenTarget_of_executing_none (executing_eq_none (.inr hde)), by simp [branchTaken, h0], by simp [h0]⟩
  case inr.inr =>
    rcases executeStage_branch_cases he hr with ⟨hb, -⟩ | hnot
    · simp [branchTaken, executePops, h0] at hb
    · exact .inr ⟨takenTarget_of_executing_none (executing_eq_none (.inl h0)), hnot⟩

/-! ### The slots at the commit (R165) -/

theorem slotAfter_decodePops (q : Option FdRecord) (s : State) :
    slotAfter q (decodePops s) s.fd = if q.isSome then q else if s.dstall = 0 then none else s.fd := by
  cases q with
  | some r => rfl
  | none => cases hfd : s.fd <;> simp [slotAfter, decodePops, hfd]

theorem slotAfter_executePops (q : Option DeRecord) (s : State) :
    slotAfter q (executePops s) s.de = if q.isSome then q else if s.estall = 0 then none else s.de := by
  cases q with
  | some r => rfl
  | none => cases hde : s.de <;> simp [slotAfter, executePops, hde]

/-! ### A cycle without a fatal error -/

section Completed

variable {s t : State} (hs : s.status = .running) (h : step s = .next t) (hn : NotFaulted t)

include hs h hn

/-- A cycle without a fatal error commits what its stages did (R185). -/
theorem step_commits :
    ∃ f e, fetchStage s = .ok f ∧ executeStage s = .next e ∧ e.status = .running ∧ t = commit s f e := by
  rcases step_running_cases hs h with ⟨x, rfl⟩ | ⟨f, e, hf, he, hr, -, -, rfl⟩
  · exact absurd rfl (hn x)
  · exact ⟨f, e, hf, he, hr, rfl⟩

/-- A taken branch sets the PC, empties both slots and starts the branch stall (R163, R164). -/
theorem step_of_taken {target : Word} (ht : takenTarget s = some target) :
    t.pc = target ∧ t.fd = none ∧ t.de = none ∧ t.dstall = 1 ∧ t.estall = 2 := by
  obtain ⟨f, e, -, he, hr, rfl⟩ := step_commits hs h hn
  rcases executeStage_taken_cases he hr with ⟨target', ht', rfl, hb⟩ | ⟨hnone, -⟩
  · obtain rfl : target = target' := by simpa [ht] using ht'
    simp [commit_pc, commit_fd, commit_de, commit_dstall, hb]
  · simp [ht] at hnone

/-- Without a taken branch the PC is Fetch's, each slot holds what was enqueued, if anything was, and each stall counts
down (R155, R158, R163, R165). -/
theorem step_of_not_taken {f : FetchResult} (hf : fetchStage s = .ok f) (ht : takenTarget s = none) :
    t.pc = f.pc ∧ t.fd = (if f.record.isSome then f.record else if s.dstall = 0 then none else s.fd) ∧
      t.de = (if (decodeStage s).isSome then decodeStage s else if s.estall = 0 then none else s.de) ∧
      t.dstall = 0 ∧ t.estall.val = s.estall.val - 1 := by
  obtain ⟨f', e, hf', he, hr, rfl⟩ := step_commits hs h hn
  obtain rfl := Except.ok.inj (hf.symm.trans hf')
  rcases executeStage_taken_cases he hr with ⟨target, hsome, -⟩ | ⟨-, hb, hest⟩
  · simp [ht] at hsome
  · rw [commit_pc, commit_fd, commit_de, commit_dstall, commit_estall, hb, slotAfter_decodePops, slotAfter_executePops,
      decodeStallAfter_eq_zero]
    exact ⟨rfl, rfl, rfl, rfl, hest⟩

/-- Fetch's stop counter, one more cycle, and the termination test (R41, R167, R180). -/
theorem step_counters {f : FetchResult} (hf : fetchStage s = .ok f) :
    t.stop = f.stop ∧ t.cycle = s.cycle + 1 ∧ t.status = statusAfter t.stop t.de := by
  obtain ⟨f', e, hf', -, -, rfl⟩ := step_commits hs h hn
  obtain rfl := Except.ok.inj (hf.symm.trans hf')
  exact ⟨rfl, rfl, rfl⟩

/-- Without a taken branch an unstalled Decode hands the F→D slot's record on (R156, R165). -/
theorem step_de_of_decode (ht : takenTarget s = none) (hd0 : s.dstall = 0) {g : FdRecord} (hfd : s.fd = some g) :
    t.de = some (hazardUnit (decodeRecord g.word g.pc1 s) s.de) := by
  obtain ⟨f, -, hf, -⟩ := step_commits hs h hn
  obtain ⟨-, -, hde, -⟩ := step_of_not_taken hs h hn hf ht
  rw [hde, decodeStage_eq_some.mpr ⟨hd0, g, hfd, rfl⟩, Option.isSome_some, if_pos rfl]

/-- The cycle of a performed instruction leaves the storage as the instruction left it (R160). -/
theorem step_storage_of_executing {i : Instr} (hi : executing s = some i) : ∃ e, exec i s = .next e ∧ SameStorage e t := by
  obtain ⟨r, h0, hde, hd⟩ := executing_eq_some.mp hi
  obtain ⟨f, e, hx, rfl⟩ := step_performs hs h0 hde hd h hn
  exact ⟨e, hx, sameStorage_commit s f e⟩

end Completed

/-- A stalled or idle Execute leaves the storage as it was (R158, R159). -/
theorem sameStorage_of_executing_none {s t : State} (h : step s = .next t) (hi : executing s = none) : SameStorage s t := by
  rcases step_storage h with hsame | ⟨i, e, -, hsome, -⟩
  · exact hsame
  · simp [hi] at hsome

/-- The two values of the status at the commit (R180). -/
theorem statusAfter_cases (stop : Fin 4) (de : Option DeRecord) :
    (statusAfter stop de = .halted ∧ 3 ≤ stop.val ∧ de = none) ∨
      (statusAfter stop de = .running ∧ ¬(3 ≤ stop.val ∧ de = none)) := by
  by_cases h : 3 ≤ stop.val ∧ de = none
  · exact .inl ⟨if_pos h, h⟩
  · exact .inr ⟨if_neg h, h⟩

/-- A cycle performs the record Execute dequeues, unless a fatal error undoes it (R160, R204). -/
theorem isSome_performedRecord_iff (s t : State) :
    (performedRecord s t).isSome = true ↔ NotFaulted t ∧ s.estall = 0 ∧ s.de ≠ none := by
  cases hst : t.status with
  | faulted err =>
    have hfault : ¬NotFaulted t := fun hn => hn err hst
    simp [performedRecord, hst, hfault]
  | running | halted =>
    have hn : NotFaulted t := fun err => by simp [hst]
    by_cases h0 : s.estall = 0
    · simp [performedRecord, hst, hn, h0, Option.isSome_iff_ne_none]
    · simp [performedRecord, hst, h0]

end Sys2Proof.Machine
end

section
/-! PROOFS. The statements about the cycle (spec/45_pipeline.md): Fetch, the commit, termination and what Execute leaves,
each a short use of the lemmas above. -/

namespace Sys2Proof.Machine

/-- Settles O23: the four answers of Fetch, and each of them committed. -/
theorem fetchReadsTheWordAtThePc : Obligations.FetchReadsTheWordAtThePc := by
  refine ⟨fun s => ⟨fetchStage_of_blocked, fetchStage_of_outside, fun hstop hpc hw => ?sentinel, fun hstop hpc hw => ?word⟩,
    fun s t hs h hn => ?committed⟩
  case sentinel => exact ⟨_, fetchStage_of_sentinel hstop hpc hw, val_stop_add_one hstop⟩
  case word => exact ⟨s.pc + 1, BitVec.toNat_add s.pc 1, fetchStage_of_word hstop hpc hw⟩
  case committed =>
    obtain ⟨f, -, hf, -⟩ := step_commits hs h hn
    have hpc : s.stop.val < 3 → s.pc.toNat < 1024 := pc_lt_of_fetchStage_ok hf
    refine ⟨hpc, fun hstop => ?_, fun hstop hw => ?_, fun hstop hw => ?_, fun target ht => ?_⟩
    · have hf := fetchStage_of_blocked hstop
      exact ⟨(step_counters hs h hn hf).1, fun ht => (step_of_not_taken hs h hn hf ht).1⟩
    · have hf := fetchStage_of_sentinel hstop (hpc hstop) hw
      obtain ⟨hcount, -⟩ := step_counters hs h hn hf
      exact ⟨hcount ▸ val_stop_add_one hstop, fun ht => (step_of_not_taken hs h hn hf ht).1⟩
    · have hf := fetchStage_of_word hstop (hpc hstop) hw
      refine ⟨(step_counters hs h hn hf).1, fun ht => ?_⟩
      obtain ⟨htpc, htfd, -⟩ := step_of_not_taken hs h hn hf ht
      exact ⟨htpc, htfd⟩
    · obtain ⟨htpc, htfd, -⟩ := step_of_taken hs h hn ht
      exact ⟨htpc, htfd⟩

/-- Settles O24. -/
theorem commitSetsPcSlotsAndCounters : Obligations.CommitSetsPcSlotsAndCounters := by
  intro s t f hs hf h hn
  obtain ⟨hstop, hcycle, -⟩ := step_counters hs h hn hf
  refine ⟨fun target => step_of_taken hs h hn, fun ht => ?notTaken, hstop, fun h3 => ?blocked, fun h3 hw => ?fetched, hcycle⟩
  case notTaken =>
    obtain ⟨hpc, hfd, hde, hd, hest⟩ := step_of_not_taken hs h hn hf ht
    refine ⟨hpc.trans (fetchStage_pc hf), hfd, hde, ?_, hest⟩
    rw [hd, Nat.sub_eq_zero_of_le (Nat.le_of_lt_succ s.dstall.isLt)]
    rfl
  case blocked => exact (step_counters hs h hn (fetchStage_of_blocked h3)).1
  case fetched => exact (step_counters hs h hn (fetchStage_of_word h3 (pc_lt_of_fetchStage_ok hf h3) hw)).1

/-- Settles O25. -/
theorem coreHaltsWhenTheSentinelHasPropagated : Obligations.CoreHaltsWhenTheSentinelHasPropagated := by
  intro s t hs h hn
  obtain ⟨f, -, hf, -⟩ := step_commits hs h hn
  obtain ⟨-, hcycle, hstatus⟩ := step_counters hs h hn hf
  rw [hstatus]
  rcases statusAfter_cases t.stop t.de with ⟨hhalt, htest⟩ | ⟨hrun, htest⟩
  · exact ⟨iff_of_true hhalt htest, fun hne => absurd hhalt hne, hcycle⟩
  · exact ⟨iff_of_false (by simp [hrun]) htest, fun _ => hrun, hcycle⟩

/-- Settles O27: a stalled or idle Execute performs nothing, so it takes no branch either. -/
theorem stalledOrIdleExecuteWritesNothing : Obligations.StalledOrIdleExecuteWritesNothing := by
  intro s t hs h hn
  obtain ⟨f, -, hf, -⟩ := step_commits hs h hn
  refine ⟨fun hoff => ?storage, fun h0 => ?stalled, fun h0 hde => ?idle⟩
  case storage =>
    have hsame := sameStorage_of_executing_none h (executing_eq_none hoff)
    exact ⟨hsame.x, hsame.dmem, hsame.sreg, hsame.lat⟩
  case stalled =>
    have ht := takenTarget_of_executing_none (executing_eq_none (.inl h0))
    obtain ⟨-, -, hde, -, hest⟩ := step_of_not_taken hs h hn hf ht
    refine ⟨?_, fun hdec => ?_⟩
    · rw [hest, Nat.sub_add_cancel (Nat.pos_of_ne_zero (Fin.val_ne_zero_iff.mpr h0))]
    · rw [hde, hdec, if_neg (by simp), if_neg h0]
  case idle =>
    have ht := takenTarget_of_executing_none (executing_eq_none (.inr hde))
    obtain ⟨-, -, -, -, hest⟩ := step_of_not_taken hs h hn hf ht
    exact Fin.ext (by rw [hest, h0]; rfl)

/-- Settles O28: the latch is the performed instruction's, and else as it was. -/
theorem latchHoldsTheMostRecentResult : Obligations.LatchHoldsTheMostRecentResult := by
  intro s t hs h hn
  refine ⟨fun r i hde hi hw => ?producer, fun q imm hi => ?store, fun i hi hb => ?branch, fun hi => ?none⟩
  case producer =>
    obtain ⟨e, hx, hsame⟩ := step_storage_of_executing hs h hn hi
    obtain ⟨r', -, hde', hd⟩ := executing_eq_some.mp hi
    obtain rfl := Option.some.inj (hde.symm.trans hde')
    obtain ⟨m, -, rfl⟩ := (decode_eq_ok _ _).mp hd
    obtain ⟨v, sreg, hx'⟩ := exec_instrOf_of_writesR1 (by simpa using hw) (r1Field r.word) (lowField r.word) s
    obtain rfl := Host.Outcome.next.inj (hx'.symm.trans hx)
    rw [hsame.lat, readReg_congr hsame.x, readReg_result, writeResult_lat]
  case store =>
    obtain ⟨e, hx, hsame⟩ := step_storage_of_executing hs h hn hi
    obtain rfl := Host.Outcome.next.inj ((exec_str q imm s).symm.trans hx)
    rw [hsame.lat, recordStore_lat]
  case branch =>
    obtain ⟨e, hx, hsame⟩ := step_storage_of_executing hs h hn hi
    rw [hsame.lat, exec_lat_of_branch hb hx]
  case none => exact (sameStorage_of_executing_none h hi).lat

/-- Settles O33: a cycle with a fatal error performs no record, and any other performs the one Execute dequeues. -/
theorem runCompleteMarksAnEmptySlotAfterADequeue : Obligations.RunCompleteMarksAnEmptySlotAfterADequeue := by
  intro s t _ _
  rw [runComplete, Bool.and_eq_true, Option.isNone_iff_eq_none, isSome_performedRecord_iff, and_assoc, and_assoc]

end Sys2Proof.Machine
end

section
/-! PROOFS. The rules of the hazard unit as opcode values (spec/45_pipeline.md R169 to R174), the record of a branch, and
operands read from the register file in place of the record. -/

namespace Sys2Proof.Machine

/-! ### Opcode values (R77, R169, R170, R172) -/

theorem isBranchOp_iff (op : Opcode) : isBranchOp op = true ↔ op = 4 ∨ op = 7 := by
  simp [isBranchOp, opcodeMap]

theorem isBranchOp_opcodeMap (m : Mnemonic) : isBranchOp (opcodeMap m) = isBranch m := by
  cases m <;> decide

theorem isProducer_iff_mem (op : Opcode) : isProducer op = true ↔ op ∈ [0, 1, 2, 6, 3, 5, 8, 9, (10 : Opcode)] := by
  revert op; decide

theorem consumesR1_iff (op : Opcode) : consumesR1 op = true ↔ op ≠ 10 ∧ op ≠ 3 := by
  simp [consumesR1, opcodeMap]

/-! ### What the hazard unit leaves alone, and when it sets no flag -/

@[simp] theorem hazardUnit_pc1 (inc : DeRecord) (ex : Option DeRecord) : (hazardUnit inc ex).pc1 = inc.pc1 := by
  rw [hazardUnit_eq]

/-- A branch gets no flag, and nothing does with no record executing (R169, R174). -/
theorem hazardUnit_clear {inc : DeRecord} {ex : Option DeRecord} (h : isBranchOp inc.op = true ∨ ex = none) :
    (hazardUnit inc ex).memstall = false ∧ (hazardUnit inc ex).fwd1 = false ∧ (hazardUnit inc ex).fwd2 = false := by
  rw [hazardUnit_memstall, hazardUnit_fwd1, hazardUnit_fwd2]
  rcases h with h | rfl
  · simp [h]
  · simp

/-! ### The record of a branch (R169, R175) -/

theorem isBranchOp_of_decode {w : Word} {i : Instr} (hd : decode w = .ok i) : isBranchOp (opField w) = isBranch i.mnemonic := by
  obtain ⟨m, hm, rfl⟩ := (decode_eq_ok _ _).mp hd
  rw [← (mnemonicOf_eq_some _ _).mp hm, isBranchOp_opcodeMap, mnemonic_instrOf]

/-- In a well-made record a branch carries no forward flag: its hazard flag is clear, and that is the others' disjunction. -/
theorem RecordOk.forwards_clear_of_branch {r : DeRecord} {i : Instr} (hok : RecordOk r) (hd : decode r.word = .ok i)
    (hb : isBranch i.mnemonic = true) : r.fwd1 = false ∧ r.fwd2 = false := by
  have hclear : r.hazard = false := hok.branch (by rw [hok.op, isBranchOp_of_decode hd, hb])
  rw [hok.hazard, Bool.or_eq_false_iff, Bool.or_eq_false_iff] at hclear
  obtain ⟨⟨-, hfwd1⟩, hfwd2⟩ := hclear
  exact ⟨hfwd1, hfwd2⟩

/-- The r2 value Decode reads for a BR is its second register's (R81, R131). -/
theorem decodeRecord_v2_of_br {w pc1 : Word} {s : State} {a b : RegIdx} (hd : decode w = .ok (.br a b)) :
    (decodeRecord w pc1 s).v2 = readReg b s := by
  have hw : w = joinFields (opcodeMap .br) a b := eq_joinFields_of_decode (m := .br) hd
  have hfmt : formatOf (opField w) = .r := by
    rw [hw, opField_joinFields]
    exact formatOf_of_mnemonicOf (mnemonicOf_opcodeMap .br)
  rw [decodeRecord_v2, if_pos hfmt, hw, lowField_joinFields]

/-! ### The operands of an emptied slot (assumption 7) -/

/-- The state with another D→E slot. -/
def withDe (d : Option DeRecord) (s : State) : State := { s with de := d }

/-- An instruction that is no branch reads the D→E slot for its operands only: where these are the register file's, emptying
the slot changes nothing but the slot. -/
theorem exec_withDe_none {m : Mnemonic} (hb : isBranch m = false) {r1 : RegIdx} {low : BitVec 6} {s : State}
    (ha : readsR1 m = true → operandA r1 s = readReg r1 s) (hb2 : readsR2 m = true → operandB low s = readReg low s) :
    ∃ u, exec (instrOf m r1 low) (withDe none s) = .next u ∧ exec (instrOf m r1 low) s = .next (withDe s.de u) := by
  cases m with
  | add => exact ⟨_, exec_add r1 low _, by rw [instrOf, exec_add, ha rfl, hb2 rfl]; rfl⟩
  | sub => exact ⟨_, exec_sub r1 low _, by rw [instrOf, exec_sub, ha rfl, hb2 rfl]; rfl⟩
  | mul => exact ⟨_, exec_mul r1 low _, by rw [instrOf, exec_mul, ha rfl, hb2 rfl]; rfl⟩
  | eor => exact ⟨_, exec_eor r1 low _, by rw [instrOf, exec_eor, ha rfl, hb2 rfl]; rfl⟩
  | andi => exact ⟨_, exec_andi r1 _ _, by rw [instrOf, exec_andi, ha rfl]; rfl⟩
  | sal => exact ⟨_, exec_sal r1 _ _, by rw [instrOf, exec_sal, ha rfl]; rfl⟩
  | sar => exact ⟨_, exec_sar r1 _ _, by rw [instrOf, exec_sar, ha rfl]; rfl⟩
  | str => exact ⟨_, exec_str r1 _ _, by rw [instrOf, exec_str, ha rfl]; rfl⟩
  | movi => exact ⟨_, exec_movi r1 _ _, exec_movi r1 _ s⟩
  | ldr => exact ⟨_, exec_ldr r1 _ _, exec_ldr r1 _ s⟩
  | beqz | br => cases hb

/-- An instruction that reads r2 in Execute is R-format (R72). -/
theorem format_of_readsR2 {m : Mnemonic} (h : readsR2 m = true) : m.format = .r := by
  revert h; cases m <;> decide

/-- In a state of the invariant the operands an instruction reads, branches aside, are the register file's (R182, item 5). -/
theorem Inv.operands_current {s : State} {r : DeRecord} {m : Mnemonic} (hi : Inv s) (hde : s.de = some r)
    (hm : mnemonicOf (opField r.word) = some m) :
    (readsR1 m = true → operandA (r1Field r.word) s = readReg (r1Field r.word) s) ∧
      (readsR2 m = true → operandB (lowField r.word) s = readReg (lowField r.word) s) := by
  obtain ⟨hok, -, hcurrent, -⟩ := hi.de r hde
  obtain ⟨ha, hb⟩ := hcurrent m (by rw [hok.op, hm])
  refine ⟨fun hreads => hok.r1 ▸ ha hreads, fun hreads => hb hreads _ ?_⟩
  rw [hok.r2, hok.fmt, formatOf_of_mnemonicOf hm, format_of_readsR2 hreads, if_pos rfl]

end Sys2Proof.Machine
end

section
/-! PROOFS. The states a run starts from satisfy the invariant of R182, and no queue overflows in a state of it. -/

namespace Sys2Proof.Machine

/-! ### The memories of a loaded program (R225, R226) -/

/-- A program that fits is loaded into a memory of canonical form. -/
theorem wf_loadFrom {program : List Word} {m : List (Nat × Word)} {a : Nat} (hm : Imem.wf m)
    (hfit : a + program.length ≤ Config.imemSize) : Imem.wf (loadFrom m a program) := by
  induction program generalizing m a with
  | nil => exact hm
  | cons w ws ih =>
    rw [List.length_cons] at hfit
    exact ih (Imem.wf_write w (by omega) hm) (by omega)

theorem wf_loadImage {program : List Word} {image : List (Nat × Word)} (h : loadImage program = some image) :
    Imem.wf image := by
  rw [loadImage, Option.ite_none_right_eq_some, Option.some.injEq] at h
  obtain ⟨hfit, rfl⟩ := h
  exact wf_loadFrom Cells.wf_nil (by omega)

theorem wf_initDmem (cells : List Host.Cell) : Memory.wf (initDmem cells) := by
  refine List.foldlRecOn cells _ Cells.wf_nil fun m hm c _ => ?_
  split
  · next hc => exact Memory.wf_write c.2 hc hm
  · exact hm

/-! ### Reset (R220) -/

/-- The invariant holds at reset whatever the registers and with memories of canonical form: nothing is in flight. -/
theorem inv_resetWith (regs : Vector Byte 64) {dmem : List Host.Cell} {imem : List (Nat × Word)} (hd : Memory.wf dmem)
    (hm : Imem.wf imem) : Inv (State.resetWith regs dmem imem) where
  dmem := hd
  imem := hm
  sreg := (by decide : reservedBits 0x00 = 0)
  fd := fun _ h => nomatch h
  de := fun _ h => nomatch h
  fsm := .inl ⟨rfl, rfl⟩
  stopFd := fun _ => rfl
  stopDe := fun _ => rfl
  running := fun _ => Nat.zero_lt_succ 2
  halted := fun h => nomatch h

/-! ### The queues (R154, R157, R203) -/

theorem FlushFsmOk.dstall_eq_zero_of_fd {s : State} {g : FdRecord} (h : FlushFsmOk s) (hfd : s.fd = some g) :
    s.dstall = 0 := by
  rcases h with ⟨h0, -⟩ | ⟨-, -, hn, -⟩ | ⟨h0, -⟩
  · exact h0
  · simp [hn] at hfd
  · exact h0

/-- A F→D slot that holds a record is dequeued in the cycle. -/
theorem FlushFsmOk.fdOverflows_eq_false {s : State} (h : FlushFsmOk s) (f : FetchResult) : fdOverflows s f = false := by
  cases hfd : s.fd with
  | none => simp [fdOverflows, hfd]
  | some g => simp [fdOverflows, decodePops, hfd, h.dstall_eq_zero_of_fd hfd]

/-- A D→E slot that holds a record is dequeued in the cycle. -/
theorem FlushFsmOk.deOverflows_eq_false {s : State} (h : FlushFsmOk s) : deOverflows s = false := by
  cases hde : s.de with
  | none => simp [deOverflows, hde]
  | some r => simp [deOverflows, executePops, hde, h.estall_eq_zero hde]

theorem halted_or_running_ne_faulted {c : Prop} [Decidable c] (err : FatalError) :
    (if c then RunStatus.halted else .running) ≠ .faulted err := by
  split <;> simp

/-- Where no queue overflows, a cycle whose fetch succeeded takes Execute's fatal error only. -/
theorem cycleFault_of_no_overflow {s e : State} {f : FetchResult} {err : FatalError} (hfd : fdOverflows s f = false)
    (hde : deOverflows s = false) (h : cycleFault s f e = some err) : e.status = .faulted err := by
  cases hst : e.status with
  | faulted x => simpa [cycleFault, hst] using h
  | running | halted => simp [cycleFault, hst, hfd, hde] at h

/-- A cycle in which no queue overflows raises no QueueOverflow. -/
theorem step_ne_queueOverflow {s t : State} (hs : s.status = .running) (h : step s = .next t)
    (hfd : ∀ f, fdOverflows s f = false) (hde : deOverflows s = false) (q : Queue) : t.status ≠ .faulted (.queueOverflow q) := by
  intro hq
  have hc : cycleStep s = .next t := by simpa only [step, clockEdge, hs] using h
  cases hf : fetchStage s with
  | error err =>
    obtain rfl := Host.Outcome.next.inj ((cycleStep_of_fetchError hf).symm.trans hc)
    obtain rfl := fetchStage_error hf
    cases hq
  | ok f =>
    obtain ⟨e, he⟩ := exists_executeStage_eq_next s
    rw [cycleStep_of_stages hf he] at hc
    cases hx : cycleFault s f e with
    | none =>
      obtain rfl : commit s f e = t := by simpa [hx] using hc
      exact halted_or_running_ne_faulted _ hq
    | some err =>
      obtain rfl : raiseFatal err s = t := by simpa [hx] using hc
      obtain rfl : err = .queueOverflow q := by simpa using hq
      obtain ⟨r, -, hr⟩ := executeStage_faulted hs he (cycleFault_of_no_overflow (hfd f) hde hx)
      cases hr

end Sys2Proof.Machine
end

section
/-! PROOFS. A cycle as the commit of the instruction in the D→E slot, and the placement of a word there. -/

namespace Sys2Proof.Machine

/-! ### The commit as a state (R163 to R167, R180) -/

/-- A taken branch is committed as it is, with the counters and the status beside it; a core that has reached the stop
threshold halts with it, because it empties the D→E slot. -/
theorem commit_of_taken {s e : State} (hb : branchTaken s e = true) (hde : e.de = none) (f : FetchResult) :
    commit s f e =
      { e with stop := f.stop, cycle := s.cycle + 1, status := if 3 ≤ f.stop.val then .halted else .running } := by
  simp only [commit, commitStages, hb, if_true, statusAfter, hde, and_true]

/-- Behind an instruction that took no branch the PC, the slots and the decode stall are the stages'. -/
theorem commit_of_performed {s e : State} (hb : branchTaken s e = false) (h0 : s.estall = 0) (f : FetchResult) :
    commit s f e =
      { e with
        pc := f.pc
        fd := if f.record.isSome then f.record else if s.dstall = 0 then none else s.fd
        de := decodeStage s
        dstall := 0
        stop := f.stop
        cycle := s.cycle + 1
        status := if 3 ≤ f.stop.val ∧ decodeStage s = none then .halted else .running } := by
  have hde : slotAfter (decodeStage s) (executePops s) s.de = decodeStage s := by
    rw [slotAfter_executePops, if_pos h0]
    cases decodeStage s <;> rfl
  simp only [commit, commitStages, hb, Bool.false_eq_true, if_false, slotAfter_decodePops, hde, decodeStallAfter_eq_zero]
  rfl

/-- A step whose stages raise no fatal error is their commit (R185). -/
theorem step_eq_commit {s e : State} {f : FetchResult} (hs : s.status = .running) (hf : fetchStage s = .ok f)
    (he : executeStage s = .next e) (hr : e.status = .running) (hfd : fdOverflows s f = false)
    (hde : deOverflows s = false) : step s = .next (commit s f e) := by
  simp only [step, clockEdge, hs]
  rw [cycleStep_of_stages hf he]
  simp [cycleFault, hr, hfd, hde]

/-- Fetch's enqueue fits where it has no record, the F→D slot is empty, or Decode empties it (R154). -/
theorem fdOverflows_eq_false {s : State} {f : FetchResult} (h : f.record = none ∨ s.fd = none ∨ s.dstall = 0) :
    fdOverflows s f = false := by
  rcases h with h | h | h
  · simp [fdOverflows, h]
  · simp [fdOverflows, h]
  · cases hfd : s.fd <;> simp [fdOverflows, decodePops, h, hfd]

/-! ### The placement of a word (assumption 9) -/

theorem decode_of_decodeTableWord {n w : Nat} {i : Instr} (h : decodeTableWord n w = some i) :
    decode (tableWord n w) = .ok i := by
  unfold decodeTableWord at h
  cases hd : decode (tableWord n w) with
  | ok j =>
    rw [hd] at h
    exact congrArg Except.ok (Option.some.inj h)
  | error x => simp [hd] at h

/-- The cycle that executes a placed word can fetch at the PC. -/
theorem placeIndex_add_one_lt (s : State) : (placeIndex s + 1).toNat < 1024 := by
  unfold placeIndex
  split
  · next h =>
    have h : s.pc.toNat + 1 < 1024 := h
    rw [BitVec.toNat_add]
    exact (Nat.mod_le _ _).trans_lt h
  · decide

theorem placeForExecute_of_not_sentinel {word : Word} (hw : isSentinel word = false) (s : State) :
    placeForExecute word s =
      { s with
        pc := placeIndex s + 1
        imem := Imem.write s.imem (placeIndex s).toNat word
        fd := none
        de := some (decodeRecord word (placeIndex s + 1) s)
        dstall := 0
        estall := 0
        status := .running } :=
  if_neg (ne_true_of_eq_false hw)

/-- A word that is no sentinel is placed in the D→E slot of a running core that neither stage stalls, with the F→D slot empty
and a PC inside instruction memory. -/
theorem placeForExecute_ready {word : Word} (hw : isSentinel word = false) (s : State) :
    ∃ r, (placeForExecute word s).de = some r ∧ r.word = word ∧ (placeForExecute word s).status = .running ∧
      (placeForExecute word s).estall = 0 ∧ (placeForExecute word s).fd = none ∧
      (placeForExecute word s).pc.toNat < 1024 := by
  rw [placeForExecute_of_not_sentinel hw]
  exact ⟨_, rfl, rfl, rfl, rfl, rfl, placeIndex_add_one_lt s⟩

/-- An instruction is not the sentinel (R80). -/
theorem isSentinel_of_decode {w : Word} {i : Instr} (hd : decode w = .ok i) : isSentinel w = false := by
  obtain ⟨m, hm, -⟩ := (decode_eq_ok _ _).mp hd
  refine beq_eq_false_iff_ne.mpr fun hw => ?_
  rw [hw, mnemonicOf_sentinel] at hm
  cases hm

end Sys2Proof.Machine
end

section
/-! PROOFS. The statements about the pipeline (spec/45_pipeline.md): its invariant, its FSM, forwarding and the path of a word,
each a short use of the lemmas above. -/

namespace Sys2Proof.Machine

/-! ### Tier 2 -/

/-- Settles O46: reset over memories of canonical form. -/
theorem invariantHoldsForEveryLoadedProgram : Obligations.InvariantHoldsForEveryLoadedProgram := by
  intro p regs cells s h
  obtain ⟨image, himage, rfl⟩ := Option.map_eq_some_iff.mp h
  exact inv_resetWith regs (wf_initDmem cells) (wf_loadImage himage)

/-- Settles O48: under the flush FSM a slot that holds a record is dequeued. -/
theorem queuesNeverOverflow : Obligations.QueuesNeverOverflow := fun _ _ q hi hs h =>
  step_ne_queueOverflow hs h hi.fsm.fdOverflows_eq_false hi.fsm.deOverflows_eq_false q

/-- Settles O49: R182's item 5 for the operands, and the slot is read for nothing else. -/
theorem forwardingMakesOperandsCurrent : Obligations.ForwardingMakesOperandsCurrent := by
  intro s r i hi hde hd hb
  obtain ⟨m, hm, rfl⟩ := (decode_eq_ok _ _).mp hd
  obtain ⟨ha, hb2⟩ := hi.operands_current hde hm
  obtain ⟨u, hu, ht⟩ := exec_withDe_none (by simpa using hb) ha hb2
  exact ⟨_, u, ht, hu, hde ▸ rfl⟩

/-- Settles O50: a branch is taken in RUN only, because Execute is stalled in the two flush states. -/
theorem flushFsmTakesThreeStates : Obligations.FlushFsmTakesThreeStates := by
  intro s t hi hs h hn
  obtain ⟨f, -, hf, -⟩ := step_commits hs h hn
  have hstalled (h0 : s.estall ≠ 0) : executing s = none ∧ t.dstall = 0 ∧ t.estall.val = s.estall.val - 1 := by
    have hnone := executing_eq_none (.inl h0)
    obtain ⟨-, -, -, hd, hest⟩ := step_of_not_taken hs h hn hf (takenTarget_of_executing_none hnone)
    exact ⟨hnone, hd, hest⟩
  have hdecoded (ht : takenTarget s = none) (hd0 : s.dstall = 0) (g : FdRecord) (hfd : s.fd = some g) :
      ∃ d, t.de = some d ∧ d.word = g.word :=
    ⟨_, step_de_of_decode hs h hn ht hd0 hfd, hazardUnit_word _ _⟩
  refine ⟨?states, fun _ _ ht => ?taken, fun _ h0 ht => ?notTaken, fun hd1 h2 => ?flush1, fun hd0 h1 => ?flush2,
    fun hd0 _ ht => hdecoded ht hd0⟩
  case states =>
    rcases hi.fsm with hrun | ⟨hd1, h2, -⟩ | ⟨hd0, h1, -⟩
    · exact .inl hrun
    · exact .inr (.inl ⟨hd1, h2⟩)
    · exact .inr (.inr ⟨hd0, h1⟩)
  case taken =>
    obtain ⟨target, ht⟩ := Option.isSome_iff_exists.mp ht
    obtain ⟨-, -, -, hd, hest⟩ := step_of_taken hs h hn ht
    exact ⟨hd, hest⟩
  case notTaken =>
    obtain ⟨-, -, -, hd, hest⟩ := step_of_not_taken hs h hn hf ht
    exact ⟨hd, Fin.ext (by rw [hest, h0]; rfl)⟩
  case flush1 =>
    obtain ⟨hnone, hd, hest⟩ := hstalled (by rw [h2]; decide)
    exact ⟨hd, Fin.ext (by rw [hest, h2]; rfl), by simp [decodeStage, hd1], hnone⟩
  case flush2 =>
    obtain ⟨hnone, hd, hest⟩ := hstalled (by rw [h1]; decide)
    exact ⟨hd, Fin.ext (by rw [hest, h1]; rfl), hnone, hdecoded (takenTarget_of_executing_none hnone) hd0⟩

/-- Settles O51: the cycle that fetches leaves no decode stall and at most one cycle of execute stall. -/
theorem fetchedWordReachesExecuteInTwoCycles : Obligations.FetchedWordReachesExecuteInTwoCycles := by
  intro s t u hs hstop hw h ht hnone h' hu hnone'
  have hn : NotFaulted t := fun err => by simp [ht]
  obtain ⟨f, -, hf, -⟩ := step_commits hs h hn
  obtain ⟨f', -, hf', -⟩ := step_commits ht h' hu
  have hword := fetchStage_of_word hstop (pc_lt_of_fetchStage_ok hf hstop) hw
  obtain ⟨-, hfd, -, hd0, hest⟩ := step_of_not_taken hs h hn hword hnone
  obtain ⟨-, -, -, -, hest'⟩ := step_of_not_taken ht h' hu hf' hnone'
  refine ⟨hfd, Fin.ext ?_, _, step_de_of_decode ht h' hu hnone' hd0 hfd, hazardUnit_word _ _, hazardUnit_pc1 _ _⟩
  have hmax : s.estall.val < 3 := s.estall.isLt
  rw [hest', hest]
  show s.estall.val - 1 - 1 = 0
  omega

/-- Settles O52: Decode reads the registers at the start of the cycle, and the hazard unit gives a branch no flag. -/
theorem branchReadsRegistersBeforeItsPredecessorsWrite : Obligations.BranchReadsRegistersBeforeItsPredecessorsWrite := by
  intro s t g i hs hd0 hfd hd hb h hn ht
  have hde := step_de_of_decode hs h hn ht hd0 hfd
  obtain ⟨-, hfwd1, hfwd2⟩ :=
    hazardUnit_clear (inc := decodeRecord g.word g.pc1 s) (ex := s.de) (.inl ((isBranchOp_of_decode hd).trans hb))
  refine ⟨_, hde, hazardUnit_word _ _, hfwd1, hfwd2, fun q => ?_, ?_⟩
  · rw [decodedV1_of_record hde, hazardUnit_v1]
    rfl
  · rintro a b q rfl
    rw [decodedV2_of_record hde, hazardUnit_v2, decodeRecord_v2_of_br hd]

/-! ### Tier 1 -/

/-- Settles O20. -/
theorem operandsAreForwardedFromTheLatch : Obligations.OperandsAreForwardedFromTheLatch := by
  refine ⟨fun q s r hde => ⟨operandA_of_de hde q, operandB_of_de hde q⟩, fun s r i hi hde hd hb => ?_⟩
  obtain ⟨hok, -⟩ := hi.de r hde
  obtain ⟨hfwd1, hfwd2⟩ := hok.forwards_clear_of_branch hd hb
  exact ⟨hfwd1, hfwd2, fun q => by simp [operandA_of_de hde, hfwd1], fun q => by simp [operandB_of_de hde, hfwd2]⟩

/-- Settles O21: the stages raise no fatal error, and the commit is a taken branch's exactly when the instruction has a
target. -/
theorem stepRunsTheInstructionInTheDecodeToExecuteSlot : Obligations.StepRunsTheInstructionInTheDecodeToExecuteSlot := by
  intro s r i f hs h0 hde hd hf hfit
  have hi : executing s = some i := executing_eq_some.mpr ⟨r, h0, hde, hd⟩
  have htaken := takenTarget_of_executing hi
  obtain ⟨e, he⟩ := exists_executeStage_eq_next s
  have hx : exec i s = .next e := by simpa [executeStage, h0, hde, hd] using he
  have hr : e.status = .running := (exec_status hx).trans hs
  have hfree : deOverflows s = false := by simp [deOverflows, executePops, h0, hde]
  refine ⟨wellFormed_of_decode hd, e, hx, ?_⟩
  rw [step_eq_commit hs hf he hr (fdOverflows_eq_false hfit) hfree, ← htaken]
  rcases executeStage_taken_cases he hr with ⟨target, ht, rfl, hb⟩ | ⟨ht, hb, -⟩
  · rw [commit_of_taken hb rfl, ht, Option.isSome_some, if_pos rfl]
  · rw [commit_of_performed hb h0, ht, Option.isSome_none, if_neg Bool.false_ne_true]

/-- Settles O22: a placed word meets the hypotheses of O21's statement. -/
theorem nextStepExecutesAPlacedWord : Obligations.NextStepExecutesAPlacedWord := by
  intro s w i hw
  have hd := decode_of_decodeTableWord hw
  obtain ⟨r, hde, hword, hs, h0, hfd, hpc⟩ := placeForExecute_ready (isSentinel_of_decode hd) s
  rw [← hword] at hd
  obtain ⟨f, hf⟩ := exists_fetchStage_eq_ok hpc
  obtain ⟨-, e, hx, hstep⟩ :=
    stepRunsTheInstructionInTheDecodeToExecuteSlot _ r i f hs h0 hde hd hf (.inr (.inl hfd))
  have hi := executing_eq_some.mpr ⟨r, h0, hde, hd⟩
  refine ⟨e, _, hx, hstep, ?_⟩
  split
  · exact ⟨rfl, rfl, rfl, rfl, halted_or_running_ne_faulted, hi⟩
  · exact ⟨rfl, rfl, rfl, rfl, halted_or_running_ne_faulted, hi⟩

/-- Settles O34: the rules of the unit, with its opcode tests read as opcode values. -/
theorem hazardUnitSetsTheFlagsOfItsFourRules : Obligations.HazardUnitSetsTheFlagsOfItsFourRules := by
  refine ⟨fun inc ex => ⟨by rw [hazardUnit_eq], hazardUnit_hazard inc ex, fun h => hazardUnit_clear ?_⟩,
    fun inc ex h4 h7 => ?_⟩
  · rwa [isBranchOp_iff, or_assoc]
  · have hb : isBranchOp inc.op = false := by
      rw [← Bool.not_eq_true, isBranchOp_iff]
      exact not_or.mpr ⟨h4, h7⟩
    refine ⟨?_, ?_, ?_⟩
    · simp [hazardUnit_memstall_iff, hb, opcodeMap]
    · simp [hazardUnit_fwd1_iff, hb, isProducer_iff_mem, consumesR1_iff, and_assoc]
    · simp [hazardUnit_fwd2_iff, hb, isProducer_iff_mem]

/-- Settles O45: the empty memories are of canonical form. -/
theorem invariantHoldsAtReset : Obligations.InvariantHoldsAtReset := inv_resetWith _ Cells.wf_nil Cells.wf_nil

end Sys2Proof.Machine
end

section
/-! PROOFS. The fatal errors of a cycle (spec/60_exceptions.md R200 to R205): the condition of each, in terms of the state the
cycle begins with, and how a step moves the PC. -/

namespace Sys2Proof.Machine

/-! ### The conditions of the four fatal errors -/

/-- Fetch is not blocked and the PC is outside instruction memory (R200). -/
def FetchFaults (s : State) : Prop := s.stop.val < 3 ∧ 1024 ≤ s.pc.toNat

/-- Execute, not stalled, dispatches `r`, whose word has a reserved opcode (R202). -/
def DispatchesReserved (s : State) (r : DeRecord) : Prop :=
  s.estall = 0 ∧ s.de = some r ∧ 12 ≤ (opField r.word).toNat

/-- Fetch has a word for a F→D slot that a stalled Decode leaves full (R154, R203). -/
def FdFull (s : State) : Prop := s.stop.val < 3 ∧ wordAtPc s ≠ 0xFFFF ∧ s.fd ≠ none ∧ s.dstall ≠ 0

/-- Decode has a record for a D→E slot that a stalled Execute leaves full (R157, R203). -/
def DeFull (s : State) : Prop := s.dstall = 0 ∧ s.fd ≠ none ∧ s.de ≠ none ∧ s.estall ≠ 0

/-! ### Each condition as the model's test -/

theorem exists_fetchStage_ok_of_not_faults {s : State} (h : ¬FetchFaults s) : ∃ f, fetchStage s = .ok f := by
  by_cases hstop : s.stop.val < 3
  · exact exists_fetchStage_eq_ok (not_le.mp fun hpc => h ⟨hstop, hpc⟩)
  · exact ⟨_, fetchStage_of_blocked (not_lt.mp hstop)⟩

/-- A Fetch that answers has a record exactly when it is not blocked and reads a word that is not the sentinel (R152). -/
theorem fetchStage_record_isSome_iff {s : State} {f : FetchResult} (hf : fetchStage s = .ok f) :
    f.record.isSome = true ↔ s.stop.val < 3 ∧ wordAtPc s ≠ 0xFFFF := by
  by_cases hstop : s.stop.val < 3
  · have hpc := pc_lt_of_fetchStage_ok hf hstop
    by_cases hw : wordAtPc s = 0xFFFF
    · obtain rfl := Except.ok.inj ((fetchStage_of_sentinel hstop hpc hw).symm.trans hf)
      exact iff_of_false Bool.false_ne_true fun ⟨_, hne⟩ => hne hw
    · obtain rfl := Except.ok.inj ((fetchStage_of_word hstop hpc hw).symm.trans hf)
      exact iff_of_true rfl ⟨hstop, hw⟩
  · obtain rfl := Except.ok.inj ((fetchStage_of_blocked (not_lt.mp hstop)).symm.trans hf)
    exact iff_of_false Bool.false_ne_true fun ⟨hlt, _⟩ => hstop hlt

theorem fdOverflows_iff {s : State} {f : FetchResult} (hf : fetchStage s = .ok f) :
    fdOverflows s f = true ↔ FdFull s := by
  rw [fdOverflows, Bool.and_eq_true, Bool.and_eq_true, fetchStage_record_isSome_iff hf, FdFull]
  cases hfd : s.fd <;> simp [decodePops, hfd, and_assoc]

theorem deOverflows_iff (s : State) : deOverflows s = true ↔ DeFull s := by
  rw [deOverflows, DeFull, decodeStage]
  by_cases hd0 : s.dstall = 0
  · cases s.fd <;> cases hde : s.de <;> simp [executePops, hd0, hde]
  · simp [hd0]

theorem executeStage_of_reserved {s : State} {r : DeRecord} (h : DispatchesReserved s r) :
    executeStage s = .next (raiseFatal (unknownOpcodeOf r) s) := by
  obtain ⟨h0, hde, hop⟩ := h
  obtain ⟨x, hx⟩ := (decode_eq_error r.word).mpr ((mnemonicOf_eq_none _).mpr hop)
  simp [executeStage, h0, hde, hx]

theorem executeStage_of_not_reserved {s : State} (hs : s.status = .running) (h : ∀ r, ¬DispatchesReserved s r) :
    ∃ e, executeStage s = .next e ∧ e.status = .running := by
  rcases executeStage_cases s with ⟨r, h0, hde, hop, -⟩ | ⟨r, i, e, -, -, -, -, hst, he⟩ | ⟨-, -, he⟩ | ⟨-, he⟩
  · exact absurd ⟨h0, hde, (mnemonicOf_eq_none _).mp hop⟩ (h r)
  · exact ⟨e, he, hst.trans hs⟩
  · exact ⟨_, he, hs⟩
  · exact ⟨_, he, hs⟩

/-! ### The step each condition leads to, in R205's order -/

section Order

variable {s : State} (hs : s.status = .running)

include hs

/-- A running core's step commits its stages' work, or takes the cycle's fatal error (R185, R204). -/
theorem step_of_stages {f : FetchResult} {e : State} (hf : fetchStage s = .ok f) (he : executeStage s = .next e) :
    step s = .next ((cycleFault s f e).elim (commit s f e) (raiseFatal · s)) := by
  simp only [step, clockEdge, hs]
  exact cycleStep_of_stages hf he

theorem step_of_reserved {r : DeRecord} (hfetch : ¬FetchFaults s) (hr : DispatchesReserved s r) :
    step s = .next (raiseFatal (unknownOpcodeOf r) s) := by
  obtain ⟨f, hf⟩ := exists_fetchStage_ok_of_not_faults hfetch
  rw [step_of_stages hs hf (executeStage_of_reserved hr)]
  rfl

variable (hfetch : ¬FetchFaults s) (hexec : ∀ r, ¬DispatchesReserved s r)

include hfetch hexec

theorem step_of_fdFull (hfull : FdFull s) : step s = .next (raiseFatal (.queueOverflow .fetchToDecode) s) := by
  obtain ⟨f, hf⟩ := exists_fetchStage_ok_of_not_faults hfetch
  obtain ⟨e, he, hst⟩ := executeStage_of_not_reserved hs hexec
  have hfd := (fdOverflows_iff hf).mpr hfull
  simp [step_of_stages hs hf he, cycleFault, hst, hfd]

theorem step_of_deFull (hfd : ¬FdFull s) (hfull : DeFull s) :
    step s = .next (raiseFatal (.queueOverflow .decodeToExecute) s) := by
  obtain ⟨f, hf⟩ := exists_fetchStage_ok_of_not_faults hfetch
  obtain ⟨e, he, hst⟩ := executeStage_of_not_reserved hs hexec
  have hfdFits := mt (fdOverflows_iff hf).mp hfd
  have hde := (deOverflows_iff s).mpr hfull
  simp [step_of_stages hs hf he, cycleFault, hst, hfdFits, hde]

theorem step_of_no_fault (hfd : ¬FdFull s) (hde : ¬DeFull s) : ∃ t, step s = .next t ∧ NotFaulted t := by
  obtain ⟨f, hf⟩ := exists_fetchStage_ok_of_not_faults hfetch
  obtain ⟨e, he, hst⟩ := executeStage_of_not_reserved hs hexec
  have hfdFits := Bool.eq_false_of_not_eq_true (mt (fdOverflows_iff hf).mp hfd)
  have hdeFits := Bool.eq_false_of_not_eq_true (mt (deOverflows_iff s).mp hde)
  exact ⟨_, step_eq_commit hs hf he hst hfdFits hdeFits, halted_or_running_ne_faulted⟩

end Order

/-! ### Back from a fatal error to its condition -/

section Faulted

variable {s t : State} {err : FatalError} (hs : s.status = .running) (h : step s = .next t) (ht : t.status = .faulted err)

include hs h ht

/-- The cycle of a fatal error changes the status only (R204). -/
theorem eq_raiseFatal_of_faulted : t = raiseFatal err s := by
  rcases step_running_cases hs h with ⟨x, rfl⟩ | ⟨f, e, -, -, -, -, -, rfl⟩
  · obtain rfl : x = err := RunStatus.faulted.inj ht
    rfl
  · exact absurd ht (halted_or_running_ne_faulted err)

/-- A fatal error that is neither a fetch out of bounds nor a queue overflow is that of a reserved opcode Execute
dispatches (R202). -/
theorem exists_reserved_of_faulted (hfetch : ∀ space n, err ≠ .outOfBounds space n) (hqueue : ∀ q, err ≠ .queueOverflow q) :
    ∃ r, DispatchesReserved s r ∧ err = unknownOpcodeOf r := by
  have hraise : step s = .next (raiseFatal err s) := by rw [h, eq_raiseFatal_of_faulted hs h ht]
  have hne {x : FatalError} (hx : step s = .next (raiseFatal x s)) : x = err :=
    RunStatus.faulted.inj (congrArg State.status (Host.Outcome.next.inj (hx.symm.trans hraise)))
  have hin : ¬FetchFaults s := fun ⟨hstop, hpc⟩ => hfetch _ _ (hne (step_of_fetch_outside hs hstop hpc)).symm
  by_contra hno
  have hexec : ∀ r, ¬DispatchesReserved s r := fun r hr => hno ⟨r, hr, (hne (step_of_reserved hs hin hr)).symm⟩
  have hfd : ¬FdFull s := fun hfull => hqueue _ (hne (step_of_fdFull hs hin hexec hfull)).symm
  have hde : ¬DeFull s := fun hfull => hqueue _ (hne (step_of_deFull hs hin hexec hfd hfull)).symm
  obtain ⟨u, hu, hn⟩ := step_of_no_fault hs hin hexec hfd hde
  obtain rfl := Host.Outcome.next.inj (hu.symm.trans h)
  exact hn err ht

end Faulted

/-! ### How a step moves the PC (R26, R163) -/

/-- A step leaves the PC, moves it past the word it fetches, or sets it to a taken branch's target. -/
theorem step_pc_cases {s t : State} (h : step s = .next t) :
    t.pc = s.pc ∨ (t.pc = s.pc + 1 ∧ wordAtPc s ≠ 0xFFFF) ∨ takenTarget s = some t.pc := by
  by_cases hs : s.status = .running
  · rcases step_running_cases hs h with ⟨x, rfl⟩ | ⟨f, e, hf, -, -, -, -, rfl⟩
    · exact .inl rfl
    · have hn : NotFaulted (commit s f e) := halted_or_running_ne_faulted
      cases ht : takenTarget s with
      | some target =>
        obtain ⟨hpc, -⟩ := step_of_taken hs h hn ht
        exact .inr (.inr (congrArg some hpc.symm))
      | none =>
        obtain ⟨hpc, -⟩ := step_of_not_taken hs h hn hf ht
        rw [hpc, fetchStage_pc hf]
        split
        · next hrec => exact .inr (.inl ⟨rfl, ((fetchStage_record_isSome_iff hf).mp hrec).2⟩)
        · exact .inl rfl
  · exact .inl (congrArg State.pc (step_not_running hs h))

/-- The branch a cycle takes is a BEQZ whose register read zero, or a BR (R130, R131). -/
theorem takenTarget_eq_some {s : State} {target : Word} (h : takenTarget s = some target) :
    (∃ r1 imm, executing s = some (.beqz r1 imm) ∧ decodedV1 r1 s = 0x00 ∧
        target = relativeTarget (recordPc1 s) imm) ∨
      ∃ r1 r2, executing s = some (.br r1 r2) ∧ target = pairTarget (decodedV1 r1 s) (decodedV2 r2 s) := by
  obtain ⟨i, hi, ht⟩ := Option.bind_eq_some_iff.mp h
  cases i with
  | beqz r1 imm =>
    rw [branchTargetOf, Option.ite_none_right_eq_some, Option.some.injEq] at ht
    obtain ⟨hv, htarget⟩ := ht
    exact .inl ⟨r1, imm, hi, hv, htarget.symm⟩
  | br r1 r2 => exact .inr ⟨r1, r2, hi, (Option.some.inj ht).symm⟩
  | add | sub | mul | movi | andi | eor | sal | sar | ldr | str => cases ht

end Sys2Proof.Machine
end

section
/-! PROOFS. The statements about the fatal errors (spec/60_exceptions.md), each a short use of the lemmas above. -/

namespace Sys2Proof.Machine

/-! ### Tier 2 -/

/-- Settles O36: the PC leaves instruction memory past its last word, or by the target of one of the two branches. -/
theorem fetchOutsideInstructionMemoryFaults : Obligations.FetchOutsideInstructionMemoryFaults := by
  refine ⟨fun s hs hstop hpc => ⟨step_of_fetch_outside hs hstop hpc, rfl⟩, fun s t h hin hout => ?_⟩
  rcases step_pc_cases h with hsame | ⟨hnext, hw⟩ | ht
  · rw [hsame] at hout
    exact absurd hin hout.not_gt
  · have hpc : t.pc.toNat = s.pc.toNat + 1 := by
      rw [hnext]
      exact BitVec.toNat_add_of_lt (show s.pc.toNat + 1 < 2 ^ 16 by omega)
    exact .inl ⟨by omega, by omega, hw⟩
  · rcases takenTarget_eq_some ht with ⟨r1, imm, hi, hv, htarget⟩ | ⟨r1, r2, hi, htarget⟩
    · exact .inr (.inl ⟨r1, imm, hi, hv, by rw [htarget, toNat_relativeTarget]⟩)
    · rw [htarget] at hout ⊢
      exact .inr (.inr ⟨r1, r2, hi, toNat_pairTarget _ _, (pairTarget_outside_iff _ _).mp hout⟩)

/-- Settles O37: of the four fatal errors only Execute's is an UnknownOpcode. -/
theorem reservedOpcodeFaultsAtExecute : Obligations.ReservedOpcodeFaultsAtExecute := by
  refine ⟨fun s r hs hpc hde hop h0 hge => ⟨?raised, rfl⟩, fun s t op w n hs h ht => ?onlyThere⟩
  case raised =>
    have hin : ¬FetchFaults s := fun ⟨hstop, hout⟩ => hout.not_gt (hpc hstop)
    exact step_of_reserved hs hin ⟨h0, hde, hop ▸ hge⟩
  case onlyThere =>
    obtain ⟨r, ⟨h0, hde, hge⟩, hr⟩ :=
      exists_reserved_of_faulted hs h ht (fun _ _ hx => nomatch hx) (fun _ hx => nomatch hx)
    obtain ⟨rfl, rfl, rfl⟩ := FatalError.unknownOpcode.inj hr
    refine ⟨r, hde, h0, hge, rfl, rfl, ?_⟩
    rw [BitVec.toNat_sub]
    exact congrArg (· % 65536) (Nat.add_comm _ _)

/-- Settles O38. -/
theorem fatalErrorsAreTakenInStageOrder : Obligations.FatalErrorsAreTakenInStageOrder := fun _ hs =>
  ⟨fun ⟨hstop, hpc⟩ => step_of_fetch_outside hs hstop hpc, fun _ => step_of_reserved hs, step_of_fdFull hs,
    step_of_deFull hs, step_of_no_fault hs⟩

/-- Settles O39: the state a fatal error leaves is that of a stopped core. -/
theorem fatalErrorCommitsNothing : Obligations.FatalErrorCommitsNothing := fun _ t _ hs h ht =>
  ⟨eq_raiseFatal_of_faulted hs h ht, stoppedCoreTakesNoCycle t (by simp [ht])⟩

/-- Settles O40: an instruction leaves the status, and the only OutOfBounds of a run is Fetch's. -/
theorem noInstructionRaisesOutOfBounds : Obligations.NoInstructionRaisesOutOfBounds := by
  refine ⟨fun i s => ?completes, fun s t n hs h => ⟨fun ht => ?register, fun ht => ?data⟩,
    fun s n v => ⟨fun hn => ⟨readRegister_of_ge hn s, writeRegister_of_ge hn v s⟩,
      fun hn => ⟨readData_of_ge hn s, writeData_of_ge hn v s⟩⟩⟩
  case completes =>
    obtain ⟨t, he, -⟩ := exec_sreg i s
    exact ⟨t, he, exec_status he⟩
  case register => exact nomatch outOfBounds_space_of_step hs h ht
  case data => exact nomatch outOfBounds_space_of_step hs h ht

/-! ### Tier 1 -/

/-- Settles O42: R206's table by evaluation. -/
theorem causeCodesAreZeroToThree : Obligations.CauseCodesAreZeroToThree :=
  ⟨rfl, rfl, fun _ _ _ _ _ _ => ⟨rfl, rfl, rfl⟩⟩

end Sys2Proof.Machine
end

section
/-! PROOFS. The loaded image of a program (spec/70_reset_and_hazards.md R226), index by index. -/

namespace Sys2Proof.Machine

/-- Loading from index `a` on leaves the indices below `a`. -/
theorem read_loadFrom_of_lt {program : List Word} {m : List (Nat × Word)} {a b : Nat} (hb : b < a) :
    Imem.read (loadFrom m a program) b = Imem.read m b := by
  induction program generalizing m a with
  | nil => rfl
  | cons w ws ih => rw [loadFrom, ih (Nat.lt_succ_of_lt hb), Imem.read_write, if_neg hb.ne]

/-- Index `a + k` of a program loaded from index `a` on: its word `k`, or what was there where the program has ended. -/
theorem read_loadFrom_add (program : List Word) (m : List (Nat × Word)) (a k : Nat) :
    Imem.read (loadFrom m a program) (a + k) = program[k]?.getD (Imem.read m (a + k)) := by
  induction program generalizing m a k with
  | nil => rfl
  | cons w ws ih =>
    rw [loadFrom]
    cases k with
    | zero => exact (read_loadFrom_of_lt (Nat.lt_succ_self a)).trans ((Imem.read_write m a a w).trans (if_pos rfl))
    | succ k =>
      have hk : a + (k + 1) = a + 1 + k := by omega
      rw [hk, ih, Imem.read_write, if_neg (by omega), List.getElem?_cons_succ]

/-- A loaded image holds the program's words from index 0 on, and the sentinel after them (R226). -/
theorem read_loadImage {program : List Word} {image : List (Nat × Word)} (h : loadImage program = some image) (k : Nat) :
    Imem.read image k = program[k]?.getD 0xFFFF := by
  rw [loadImage, Option.ite_none_right_eq_some, Option.some.injEq] at h
  obtain ⟨-, rfl⟩ := h
  have hread := read_loadFrom_add program [] 0 k
  rwa [Nat.zero_add] at hread

/-! ### The statement about the loader (tier 2) -/

/-- Settles O44: `read_loadImage` gives the words and the sentinel, and the length test of `loadImage` the refusal. -/
theorem loaderFillsUnusedSlotsWithTheSentinel : Obligations.LoaderFillsUnusedSlotsWithTheSentinel := by
  refine fun p => ⟨fun hfit => ?loaded, fun hlong => if_neg hlong.not_ge⟩
  case loaded =>
    have himage : loadImage p = some (loadFrom [] 0 p) := if_pos hfit
    refine ⟨_, himage, wf_loadImage himage, fun k hk => ?word, fun k hk => ?unused⟩
    case word => rw [read_loadImage himage, List.getElem?_eq_getElem hk, Option.getD_some]
    case unused => rw [read_loadImage himage, List.getElem?_eq_none hk, Option.getD_none]

end Sys2Proof.Machine
end
